-- ==== Sys2Proof/Word.lean ====
section
/-! DEFINITION. The two bit-vector types of the machine (00_scope.md rule R9: every quantity is unsigned). -/

namespace Sys2Proof

/-- A byte (rule R9): an opcode, a register index, a service code, one cell of the Memory Store. -/
abbrev Byte := BitVec 8

/-- A 32-bit value (parameter `XLEN` of rule R7): a register, a stack slot, an immediate, an address. -/
abbrev Word := BitVec 32

end Sys2Proof
end

