-- ==== Sys2Proof/Config.lean ====
section
/-! DEFINITION. The parameters of 00_scope.md rule R7 and the one value the spec leaves open. The numbers are the rule's
(DEDUCED, unsafe, log entry 26). -/

namespace Sys2Proof

/-- The two treatments of a register index of 8 or more that 92_eei_decisions.md D4 defines. -/
inductive BadRegPolicy where
  /-- A read yields 0, a write is dropped, the instruction otherwise proceeds. -/
  | portDefault
  /-- After its operand bytes are consumed the instruction has no effect but the diagnostics. -/
  | squashInstruction
deriving DecidableEq, Repr

/-- The two ways of fetching a 4-byte operand that 92_eei_decisions.md D5 defines. -/
inductive ImmFetch where
  /-- One checked word read: an operand that straddles the end of memory is 0 as a whole. -/
  | word
  /-- Four checked byte reads: the bytes in range contribute. -/
  | bytewise
deriving DecidableEq, Repr

/-- `MISMATCH_IMAGE` (rule R7, 45_host_operations.md rule R186): the byte that `restore()` puts at an address from a
backing file whose length is not 4096. The spec leaves it open (90_conflicts.md C4), so it has no body: a statement
that meets it holds for every value. DESIGN CHOICE (free value), safe, log entry 1. -/
opaque Config.mismatchImage : List Byte → Nat → Byte

/-- The parameters of rule R7, one field a row of its table. `RESET_IMAGE` is no field: the model carries the backing image
and computes it (70_reset_and_hazards.md rule R232). -/
structure Parameters where
  /-- `CAPACITY`: the size of the Memory Store in bytes. -/
  capacity : Nat
  /-- `NREGS`: the number of general registers. -/
  numRegs : Nat
  /-- `XLEN`: the width in bits of a register, of a stack slot and of an immediate. -/
  xlen : Nat
  /-- `STACK_SLOTS`: the number of slots of the Operand Stack. -/
  stackSlots : Nat
  /-- `SP_EMPTY`: the value of `sp` when the stack is empty. -/
  spEmpty : Nat
  /-- `STACK_DEPTH_MAX`: the largest number of values the stack can hold. -/
  stackDepthMax : Nat
  /-- `PC_BITS`: the width of `pc`. -/
  pcBits : Nat
  /-- `SP_BITS`: the width of `sp`. -/
  spBits : Nat
  /-- `BADREG_POLICY`: the treatment of a register index of 8 or more. -/
  badRegPolicy : BadRegPolicy
  /-- `IMM_FETCH`: how a 4-byte operand is fetched. -/
  immFetch : ImmFetch
  /-- `MISMATCH_IMAGE`: the image of a backing file of the wrong length, byte by byte. -/
  mismatchImage : List Byte → Nat → Byte

/-- The one configuration record of the machine, with the values of rule R7. The two policies are the spec's decisions D4
and D5: DESIGN CHOICE (the spec's), unsafe, log entries 11 and 12. The widths of `pc` and `sp` are its decisions D3 and
D22: DESIGN CHOICE (the spec's), safe, log entry 18. -/
abbrev Config.record : Parameters where
  capacity := 4096
  numRegs := 8
  xlen := 32
  stackSlots := 256
  spEmpty := 255
  stackDepthMax := 255
  pcBits := 32
  spBits := 8
  badRegPolicy := .portDefault
  immFetch := .word
  mismatchImage := Config.mismatchImage

/-- `CAPACITY` of the record. -/
def Config.capacity : Nat := Config.record.capacity

/-- `NREGS` of the record. -/
abbrev Config.numRegs : Nat := Config.record.numRegs

/-- `XLEN` of the record. The type `Word` has this width (Sys2Proof/Laws/Config.lean). -/
abbrev Config.xlen : Nat := Config.record.xlen

/-- `STACK_SLOTS` of the record. -/
def Config.stackSlots : Nat := Config.record.stackSlots

/-- `SP_EMPTY` of the record. -/
def Config.spEmpty : Nat := Config.record.spEmpty

/-- `STACK_DEPTH_MAX` of the record. -/
def Config.stackDepthMax : Nat := Config.record.stackDepthMax

/-- `PC_BITS` of the record. The field `pc` has this width (Sys2Proof/Laws/Config.lean). -/
abbrev Config.pcBits : Nat := Config.record.pcBits

/-- `SP_BITS` of the record. The field `sp` has this width (Sys2Proof/Laws/Config.lean). -/
abbrev Config.spBits : Nat := Config.record.spBits

/-- `BADREG_POLICY` of the record. -/
def Config.badRegPolicy : BadRegPolicy := Config.record.badRegPolicy

/-- `IMM_FETCH` of the record. -/
def Config.immFetch : ImmFetch := Config.record.immFetch

end Sys2Proof
end

