-- ==== Sys2Proof/Syntax.lean ====
section
/-! DEFINITION. The instructions: one constructor per row of spec/opcode_table.json (30_encoding.md rules R84, R92, R95). -/

namespace Sys2Proof

/-- The thirteen rows of the opcode table. A register operand is the whole index byte, 0 to 255 (rule R83). -/
inductive Instr where
  /-- HALT, `01` (rule R107). -/
  | halt
  /-- LOAD `reg`, `imm32`, `10 rr ii ii ii ii` (rule R120). -/
  | load (reg : Byte) (imm32 : Word)
  /-- STORE `reg`, `addr32`, `11 rr aa aa aa aa` (rule R121). -/
  | store (reg : Byte) (addr32 : Word)
  /-- ADD `dst`, `src1`, `src2`, `20 dd aa bb` (rule R130). -/
  | add (dst src1 src2 : Byte)
  /-- SUB `dst`, `src1`, `src2`, `21 dd aa bb` (rule R131). -/
  | sub (dst src1 src2 : Byte)
  /-- MUL `dst`, `src1`, `src2`, `22 dd aa bb` (rule R132). -/
  | mul (dst src1 src2 : Byte)
  /-- DIV `dst`, `src1`, `src2`, `23 dd aa bb` (rule R133). -/
  | div (dst src1 src2 : Byte)
  /-- PUSH `reg`, `30 rr` (rule R152). -/
  | push (reg : Byte)
  /-- POP `reg`, `31 rr` (rule R153). -/
  | pop (reg : Byte)
  /-- SYSCALL 0x01 PRINT_STRING, `FF 01` (rule R162). -/
  | syscallPrintString
  /-- SYSCALL 0x02 LOAD_DATA, `FF 02` (rule R163). -/
  | syscallLoadData
  /-- SYSCALL `code` with any other code, `FF cc` (rules R160, R164). -/
  | syscall (code : Byte)
  /-- UNKNOWN: one of the 246 opcode bytes that name no instruction (rules R86, R108). -/
  | unknown (op : Byte)
deriving DecidableEq, Repr

/-- The length in bytes of an instruction (30_encoding.md rules R81, R82, R84). -/
def Instr.length : Instr → Nat
  | .halt => 1
  | .load _ _ => 6
  | .store _ _ => 6
  | .add _ _ _ => 4
  | .sub _ _ _ => 4
  | .mul _ _ _ => 4
  | .div _ _ _ => 4
  | .push _ => 2
  | .pop _ => 2
  | .syscallPrintString => 2
  | .syscallLoadData => 2
  | .syscall _ => 2
  | .unknown _ => 1

/-- The register-index operands of an instruction in the order of its pseudocode: sources, then destination
(60_exceptions.md rule R207). -/
def Instr.regOperands : Instr → List Byte
  | .halt => []
  | .load r _ => [r]
  | .store r _ => [r]
  | .add d a b => [a, b, d]
  | .sub d a b => [a, b, d]
  | .mul d a b => [a, b, d]
  | .div d a b => [a, b, d]
  | .push r => [r]
  | .pop r => [r]
  | .syscallPrintString => []
  | .syscallLoadData => []
  | .syscall _ => []
  | .unknown _ => []

end Sys2Proof
end

