-- ==== Sys2Proof/WellFormed.lean ====
section
/-! DEFINITION. Which terms of `Instr` some instruction bytes stand for (30_encoding.md rules R84, R86, R95). Register
indices, immediates and addresses have no check: every value decodes (rule R88). -/

namespace Sys2Proof

/-- The ten defined opcode bytes (30_encoding.md rule R84). -/
def definedOpcodes : List Byte :=
  [0x01#8, 0x10#8, 0x11#8, 0x20#8, 0x21#8, 0x22#8, 0x23#8, 0x30#8, 0x31#8, 0xFF#8]

/-- Well-formed instructions: the general SYSCALL carries a code other than 0x01 and 0x02, which have rows of their own
(rule R92), and UNKNOWN carries a byte that is none of the ten opcodes (rule R86). -/
def Instr.wf : Instr → Bool
  | .halt => true
  | .load _ _ => true
  | .store _ _ => true
  | .add _ _ _ => true
  | .sub _ _ _ => true
  | .mul _ _ _ => true
  | .div _ _ _ => true
  | .push _ => true
  | .pop _ => true
  | .syscallPrintString => true
  | .syscallLoadData => true
  | .syscall c => c != 0x01#8 && c != 0x02#8
  | .unknown op => !(definedOpcodes.contains op)

end Sys2Proof
end

