-- ==== Sys2Proof/Decode.lean ====
section
/-! DEFINITION. The instruction decoder and the encoder, both written from the formats of 30_encoding.md rules R81, R84,
R90 and R95. -/

namespace Sys2Proof

/-- `BE32(b0, b1, b2, b3)` of 00_scope.md rule R9: `b0`, from the lowest address, is the most significant byte. -/
def be32 (b0 b1 b2 b3 : Byte) : Word :=
  BitVec.ofNat 32 (b0.toNat * 0x1000000 + b1.toNat * 0x10000 + b2.toNat * 0x100 + b3.toNat)

/-- Byte `k` of a word's big-endian form, `k` from 0 to 3: `v[31:24]`, `v[23:16]`, `v[15:8]`, `v[7:0]` (20_memory.md
rules R53, R56). -/
def beByte (v : Word) : Nat → Byte
  | 0 => v.extractLsb' 24 8
  | 1 => v.extractLsb' 16 8
  | 2 => v.extractLsb' 8 8
  | _ => v.extractLsb' 0 8

/-- The four bytes of a word, most significant first (20_memory.md rule R56). -/
def beBytes (v : Word) : List Byte := [beByte v 0, beByte v 1, beByte v 2, beByte v 3]

/-- The five formats of 30_encoding.md rule R81. -/
inductive Format where
  | op
  | opR
  | opC
  | opRRR
  | opRI
deriving DecidableEq, Repr

/-- The number of bytes of a format (rule R81). -/
def formatLength : Format → Nat
  | .op => 1
  | .opR => 2
  | .opC => 2
  | .opRRR => 4
  | .opRI => 6

/-- The format that an opcode byte selects (rules R82, R84); an unknown opcode consumes only itself (rule R86). -/
def formatOf (op : Byte) : Format :=
  match op with
  | 0x10#8 => .opRI
  | 0x11#8 => .opRI
  | 0x20#8 => .opRRR
  | 0x21#8 => .opRRR
  | 0x22#8 => .opRRR
  | 0x23#8 => .opRRR
  | 0x30#8 => .opR
  | 0x31#8 => .opR
  | 0xFF#8 => .opC
  | _ => .op

/-- The service that the code byte of a SYSCALL selects (rule R95). -/
def decodeService (code : Byte) : Instr :=
  match code with
  | 0x01#8 => .syscallPrintString
  | 0x02#8 => .syscallLoadData
  | c => .syscall c

/-- The opcode map (rules R84, R85, R89): total, eleven outcomes, `unknown` for every other byte. `b1`, `b2`, `b3` are the
operand bytes in encoding order and `imm` the 4-byte operand; a format without one of them ignores it. -/
def decodeFields (op b1 b2 b3 : Byte) (imm : Word) : Instr :=
  match op with
  | 0x01#8 => .halt
  | 0x10#8 => .load b1 imm
  | 0x11#8 => .store b1 imm
  | 0x20#8 => .add b1 b2 b3
  | 0x21#8 => .sub b1 b2 b3
  | 0x22#8 => .mul b1 b2 b3
  | 0x23#8 => .div b1 b2 b3
  | 0x30#8 => .push b1
  | 0x31#8 => .pop b1
  | 0xFF#8 => decodeService b1
  | other => .unknown other

/-- Why a list of bytes holds no whole instruction. The machine itself never meets these: its fetch supplies every
operand byte (rules R89, R91). -/
inductive DecodeError where
  /-- There is no opcode byte. -/
  | noBytes
  /-- The list ends before the operand bytes that this opcode needs. -/
  | truncated (op : Byte)
deriving DecidableEq, Repr

/-- Reads one instruction from the front of a list of bytes and answers it with the rest of the list (rules R80, R82,
R90). The operand bytes stand in the listed order (D8: DESIGN CHOICE of the spec, unsafe, log entry 15). -/
def decode : List Byte → Except DecodeError (Instr × List Byte)
  | [] => .error .noBytes
  | op :: rest =>
    match formatOf op, rest with
    | .op, rest => .ok (decodeFields op 0#8 0#8 0#8 0#32, rest)
    | .opR, r :: rest => .ok (decodeFields op r 0#8 0#8 0#32, rest)
    | .opC, c :: rest => .ok (decodeFields op c 0#8 0#8 0#32, rest)
    | .opRRR, d :: a :: b :: rest => .ok (decodeFields op d a b 0#32, rest)
    | .opRI, r :: i0 :: i1 :: i2 :: i3 :: rest => .ok (decodeFields op r 0#8 0#8 (be32 i0 i1 i2 i3), rest)
    | _, _ => .error (.truncated op)

/-- The bytes of an instruction, lowest address first (rules R80, R81, R84, R90, R95). -/
def encode : Instr → List Byte
  | .halt => [0x01#8]
  | .load r v => 0x10#8 :: r :: beBytes v
  | .store r a => 0x11#8 :: r :: beBytes a
  | .add d a b => [0x20#8, d, a, b]
  | .sub d a b => [0x21#8, d, a, b]
  | .mul d a b => [0x22#8, d, a, b]
  | .div d a b => [0x23#8, d, a, b]
  | .push r => [0x30#8, r]
  | .pop r => [0x31#8, r]
  | .syscallPrintString => [0xFF#8, 0x01#8]
  | .syscallLoadData => [0xFF#8, 0x02#8]
  | .syscall c => [0xFF#8, c]
  | .unknown op => [op]

/-- The six bytes, lowest address first, of an instruction that the opcode table gives as the number `w` of `nbits` bits.
The table reads the instruction's bytes as one big-endian number with byte 0 most significant (rule R92); the bytes above
`nbits` are 0. DEDUCED, safe, log entry 10. -/
def tableBytes (nbits w : Nat) : List Byte :=
  (List.range 6).map fun k => if k < nbits / 8 then BitVec.ofNat 8 (w >>> (8 * (nbits / 8 - 1 - k))) else 0#8

/-- The instruction that the decoder reads from an opcode-table word. -/
def decodeTableWord (nbits w : Nat) : Option Instr :=
  match decode (tableBytes nbits w) with
  | .ok (i, _) => some i
  | .error _ => none

end Sys2Proof
end

