-- ==== Sys2Proof/Machine/State.lean ====
section
/-! DEFINITION. The machine's state as plain data (10_state.md), its reasons to stop, and the state after reset. -/

namespace Sys2Proof.Machine

/-- The kinds of diagnostic event, `DIAG` (10_state.md rule R43). -/
inductive Diag where
  /-- `DIAG_BAD_REG`: a register index of 8 or more was presented (rules R23, R24). -/
  | badReg
  /-- `DIAG_MEM_READ_OOR`: a checked read was given an out-of-range address (rules R50, R52). -/
  | memReadOor
  /-- `DIAG_MEM_WRITE_OOR`: a checked write was given an out-of-range address (rules R51, R53). -/
  | memWriteOor
  /-- `DIAG_DIV_ZERO`: DIV found its divisor zero (rule R133). -/
  | divZero
  /-- `DIAG_STACK_OVERFLOW`: a push found `sp` at 0 (rule R150). -/
  | stackOverflow
  /-- `DIAG_STACK_UNDERFLOW`: a pop found the stack empty (rule R151). -/
  | stackUnderflow
  /-- `DIAG_UNKNOWN_SYSCALL`: SYSCALL with a code other than 0x01 and 0x02 (rule R164). -/
  | unknownSyscall
  /-- `DIAG_COPY_OOR`: LOAD_DATA met an out-of-range offset (rule R163). -/
  | copyOor
  /-- `DIAG_UNKNOWN_OPCODE`: the opcode byte is none of the ten (rule R108). -/
  | unknownOpcode
  /-- `DIAG_STATE_DUMP`: the dump of `printState()`, with the nine values it carries (rule R189). -/
  | stateDump (pc : Word) (regs : Vector Word Config.numRegs)
  /-- `DIAG_RESTORE_WARN`: `restore()` found no backing file or one of the wrong length (rule R186). -/
  | restoreWarn
deriving DecidableEq, Repr

/-- The five host transactions, the whole invocation surface of the block (00_scope.md rule R5, 45_host_operations.md). -/
inductive HostOp where
  /-- `reset()` (70_reset_and_hazards.md rule R230). -/
  | reset
  /-- `loadProgram(data, size)` (rule R181). -/
  | loadProgram (data : List Byte) (size : Nat)
  /-- `run()` (rule R182). -/
  | run
  /-- `printState()` (rule R189). -/
  | printState
  /-- `persistState()` (rule R188). -/
  | persistState
deriving DecidableEq, Repr

/-- The reasons for a fault: there are none. The machine has no trap, no fault state and no stuck state
(60_exceptions.md rules R200, R208, 40_execution_loop.md rules R101, R112): every abnormal condition of the spec, the two
fatal ones among them, is a next state. So nobody raises a fault. Safe: nothing is left out by it. -/
inductive Fault
deriving DecidableEq, Repr

/-- The reasons for a refusal. -/
inductive Refusal where
  /-- Raised by an arm of `exec` for an instruction that has no meaning; no arm does so. Safe: the model stops where the
  machine goes on. -/
  | notModelled (mnemonic : String)
  /-- Raised by a pending `loadProgram` whose data holds fewer than `min(size, 4096)` bytes: such a call is outside the
  interface and a model refuses it (45_host_operations.md rule R181, decision D18, U19). No instruction raises it. Safe:
  the model stops. -/
  | shortProgramData (given needed : Nat)
deriving DecidableEq, Repr

/-- The Memory Store: (address, byte) pairs in one canonical form (`Memory.wf`); an unlisted address reads as 0x00, its
value after a reset with no backing file (rules R44, R232). DESIGN CHOICE, unsafe, log entries 2 and 29. -/
abbrev Memory := List Host.Cell

/-- The Operand Stack's slots: (slot, value) pairs in the same canonical form (`Slots.wf`); an unlisted slot holds 0, its
reset value (rule R44). -/
abbrev Slots := List (Nat × Word)

/-- The state: the block's (`regs` to `mem`), the environment's (`out`, `diag`, `backing`) and the host's (`pending`). -/
structure State where
  /-- The general registers x[0] to x[7] (rule R20). -/
  regs : Vector Word Config.numRegs
  /-- The program counter (rule R26); its width is D3, unobservable (log entry 18). -/
  pc : Word
  /-- The run state (rule R31). -/
  running : Bool
  /-- The stack pointer: the slot the next successful push writes (rule R33); its width is D22 (log entry 18). -/
  sp : Byte
  /-- The Operand Stack's 256 slots (rule R34). -/
  stack : Slots
  /-- The Memory Store's 4096 bytes (rule R38). -/
  mem : Memory
  /-- `OUT`, oldest byte first (rule R42). -/
  out : List Byte
  /-- `DIAG`, oldest event first (rule R43). -/
  diag : List Diag
  /-- The backing image: absent, or a byte string (rule R40). -/
  backing : Option (List Byte)
  /-- The host transactions still to come, next first. The model's own field: DESIGN CHOICE, safe, log entry 6. -/
  pending : List HostOp
deriving DecidableEq, Repr

/-- The state after reset (rules R44, R230) with an absent backing image, so that memory is all zero (rule R232). What the
backing file, the two streams and the host's transactions are at that moment is the environment's: absent and empty.
DESIGN CHOICE, unsafe, log entries 2, 3, 4 and 6. -/
def State.reset : State where
  regs := Vector.replicate Config.numRegs 0#32
  pc := 0#32
  running := false
  sp := BitVec.ofNat Config.spBits Config.spEmpty
  stack := []
  mem := []
  out := []
  diag := []
  backing := none
  pending := []

end Sys2Proof.Machine
end

