-- ==== Sys2Proof/Machine/Ops.lean ====
section
/-! DEFINITION. The named operations over memory, registers, stack and streams (00_scope.md rule R10): the primitives of
the spec's pseudocode, each written from the rule that defines it. -/

namespace Sys2Proof.Machine

/-! ### Sparse storage in canonical form -/

/-- The value at key `a`; an unlisted key reads as 0. -/
def cellRead {w : Nat} : List (Nat × BitVec w) → Nat → BitVec w
  | [], _ => 0#w
  | (k, v) :: m, a => if k = a then v else cellRead m a

/-- Writes `b` at key `a`, keeping the keys rising and listing no 0. -/
def cellWrite {w : Nat} : List (Nat × BitVec w) → Nat → BitVec w → List (Nat × BitVec w)
  | [], a, b => if b = 0#w then [] else [(a, b)]
  | (k, v) :: m, a, b =>
    if a < k then (if b = 0#w then (k, v) :: m else (a, b) :: (k, v) :: m)
    else if a = k then (if b = 0#w then m else (a, b) :: m)
    else (k, v) :: cellWrite m a b

/-- Canonical form below a bound: keys strictly rising, each below the bound, none listed with the value 0. -/
abbrev cellsWf {w : Nat} (bound : Nat) (m : List (Nat × BitVec w)) : Prop :=
  m.Pairwise (fun c d => c.1 < d.1) ∧ ∀ c ∈ m, c.1 < bound ∧ c.2 ≠ 0#w

/-- `mem[a]` (10_state.md rule R38). What an unlisted address reads as: 0x00, the reset contents with no backing file
(rule R44). -/
def Memory.read (m : Memory) (a : Nat) : Byte := cellRead m a

/-- `mem[a] <- b`, used with `a < CAPACITY` only (rule R10). -/
def Memory.write (m : Memory) (a : Nat) (b : Byte) : Memory := cellWrite m a b

/-- The canonical form of the Memory Store: addresses rising and below `CAPACITY`, no byte 0 listed. -/
abbrev Memory.wf (m : Memory) : Prop := cellsWf Config.capacity m

/-- `stack[j]` (10_state.md rule R34). -/
def Slots.read (m : Slots) (j : Nat) : Word := cellRead m j

/-- `stack[j] <- v`. -/
def Slots.write (m : Slots) (j : Nat) (v : Word) : Slots := cellWrite m j v

/-- The canonical form of the Operand Stack: slots rising and below `STACK_SLOTS`, no value 0 listed. -/
abbrev Slots.wf (m : Slots) : Prop := cellsWf Config.stackSlots m

/-- Writes a list of bytes at ascending addresses from `a`. -/
def Memory.writeBytes (m : Memory) (a : Nat) : List Byte → Memory
  | [] => m
  | b :: bs => Memory.writeBytes (m.write a b) (a + 1) bs

/-- The memory whose byte at each address below `CAPACITY` is `f` of the address. -/
def Memory.ofImage (f : Nat → Byte) : Memory :=
  (List.range Config.capacity).filterMap fun a => if f a = 0#8 then none else some (a, f a)

/-- All `CAPACITY` bytes of the memory, lowest address first. -/
def Memory.toBytes (m : Memory) : List Byte := (List.range Config.capacity).map m.read

/-! ### Assignments to single pieces of state -/

/-- `pc <- t` (rule R26). -/
def State.setPc (s : State) (t : Word) : State := { s with pc := t }

/-- `running <- b` (rule R31). -/
def State.setRunning (s : State) (b : Bool) : State := { s with running := b }

/-- `sp <- v` (rule R33). -/
def State.setSp (s : State) (v : Byte) : State := { s with sp := v }

/-- `x[i] <- v` for a valid index (rule R20). -/
def State.setReg (s : State) (i : Fin Config.numRegs) (v : Word) : State := { s with regs := s.regs.set i v }

/-- `stack[j] <- v` (rule R34). -/
def State.setSlot (s : State) (j : Nat) (v : Word) : State := { s with stack := s.stack.write j v }

/-- `mem[a] <- b` (rule R38). -/
def State.setByte (s : State) (a : Nat) (b : Byte) : State := { s with mem := s.mem.write a b }

/-- `diag(K)`: appends an event kind to `DIAG` (rule R43). -/
def State.logDiag (s : State) (k : Diag) : State := { s with diag := s.diag ++ [k] }

/-- `out(b)`: appends a byte to `OUT` (rule R42). -/
def State.emit (s : State) (b : Byte) : State := { s with out := s.out ++ [b] }

/-! ### The memory-access unit (20_memory.md) -/

/-- `MemRead(addr, 1)` (rule R50). -/
def memRead8 (addr : Nat) (s : State) : Byte × State :=
  if addr < Config.capacity then (s.mem.read addr, s) else (0#8, s.logDiag .memReadOor)

/-- `MemWrite(addr, 1, b)` (rule R51). -/
def memWrite8 (addr : Nat) (b : Byte) (s : State) : State :=
  if addr < Config.capacity then s.setByte addr b else s.logDiag .memWriteOor

/-- `MemRead(addr, 4)` (rule R52), big-endian. The sum does not wrap (D6: DESIGN CHOICE of the spec, unsafe, log
entry 13). -/
def memRead32 (addr : Nat) (s : State) : Word × State :=
  if addr + 3 < Config.capacity then
    (be32 (s.mem.read addr) (s.mem.read (addr + 1)) (s.mem.read (addr + 2)) (s.mem.read (addr + 3)), s)
  else (0#32, s.logDiag .memReadOor)

/-- `MemWrite(addr, 4, v)` (rule R53), big-endian; a word partly out of range writes nothing. The sum does not wrap (D6,
log entry 13). -/
def memWrite32 (addr : Nat) (v : Word) (s : State) : State :=
  if addr + 3 < Config.capacity then
    (((s.setByte addr (beByte v 0)).setByte (addr + 1) (beByte v 1)).setByte (addr + 2) (beByte v 2)).setByte
      (addr + 3) (beByte v 3)
  else s.logDiag .memWriteOor

/-! ### The register-file arbiter (10_state.md) -/

/-- `RegRead(i)` (rule R23). That a bad index reads as 0 is the spec's decision D4: DESIGN CHOICE, unsafe, log entry 11. -/
def regRead (i : Byte) (s : State) : Word × State :=
  if h : i.toNat < Config.numRegs then (s.regs[i.toNat], s) else (0#32, s.logDiag .badReg)

/-- `RegWrite(i, v)` (rule R24). -/
def regWrite (i : Byte) (v : Word) (s : State) : State :=
  if h : i.toNat < Config.numRegs then s.setReg ⟨i.toNat, h⟩ v else s.logDiag .badReg

/-! ### The stack controller (43_stack.md) -/

/-- `Push(v)` (rule R150). The ok or fail result is kept nowhere (rule R152). -/
def push (v : Word) (s : State) : State :=
  if s.sp = 0#8 then s.logDiag .stackOverflow else (s.setSlot s.sp.toNat v).setSp (s.sp - 1#8)

/-- `Pop()` (rule R151): `none` is `fail`, `some v` is `(ok, v)`. -/
def pop (s : State) : Option Word × State :=
  if s.sp.toNat ≥ Config.spEmpty then (none, s.logDiag .stackUnderflow)
  else (some (s.stack.read (s.sp.toNat + 1)), s.setSp (s.sp + 1#8))

/-! ### The fatal condition (40_execution_loop.md) -/

/-- `raise UnknownOpcode(op)` (rule R108, 60_exceptions.md rule R203): the one condition an instruction raises that stops
the run. It is no trap: nothing is saved, no mode changes and `pc` is not redirected (rule R208). -/
def raiseUnknownOpcode (s : State) : State := (s.logDiag .unknownOpcode).setRunning false

/-! ### Outcomes -/

/-- Applies a change to the next state of an outcome. -/
def onNext {φ ρ : Type} (f : State → State) : Host.Outcome State φ ρ → Host.Outcome State φ ρ
  | .next s => .next (f s)
  | .fault r => .fault r
  | .refused r => .refused r

end Sys2Proof.Machine
end

