-- ==== Sys2Proof/Machine/Flags.lean ====
section
/-! DEFINITION. The machine has no flag and no condition code (10_state.md rule R30): its only one-bit status is `running`
(rules R31, R32). Here stand the loop's test of it and the four results of the ALU, which record nothing about a wrap. -/

namespace Sys2Proof.Machine

/-- The loop goes on while `running` is true and `pc < CAPACITY` (40_execution_loop.md rule R100). -/
def State.active (s : State) : Bool := s.running && s.pc.toNat < Config.capacity

/-- The end-of-memory check (rule R105): `pc >= CAPACITY` ends the run, with no diagnostic. -/
def endCheck (s : State) : State := if Config.capacity ≤ s.pc.toNat then s.setRunning false else s

/-- The entry of `run()` (rules R100, R111): `running` becomes true and `pc` stays; with `pc >= CAPACITY` the loop performs
no step and `running` is false again (D11, log entry 8). -/
def enterRun (s : State) : State := endCheck (s.setRunning true)

/-- ADD (42_arithmetic.md rule R130): the sum modulo 2^32. -/
def addResult (a b : Word) : Word × Option Diag := (BitVec.ofNat 32 (a.toNat + b.toNat), none)

/-- SUB (rule R131): the difference modulo 2^32. -/
def subResult (a b : Word) : Word × Option Diag := (BitVec.ofInt 32 ((a.toNat : Int) - (b.toNat : Int)), none)

/-- MUL (rule R132): the low 32 bits of the product. -/
def mulResult (a b : Word) : Word × Option Diag := (BitVec.ofNat 32 (a.toNat * b.toNat), none)

/-- DIV (rule R133): 0 and a diagnostic for a zero divisor, else the floor of the quotient of naturals (D7: DESIGN CHOICE
of the spec, unsafe, log entry 14). -/
def divResult (a b : Word) : Word × Option Diag :=
  if b = 0#32 then (0#32, some .divZero) else (BitVec.ofNat 32 (a.toNat / b.toNat), none)

end Sys2Proof.Machine
end

