-- ==== Sys2Proof/Machine/Operands.lean ====
section
/-! DEFINITION. How operands are fetched and how register operands are admitted (30_encoding.md, 92_eei_decisions.md D4
and D5). -/

namespace Sys2Proof.Machine

/-! ### Fetching operand bytes (40_execution_loop.md rules R102, R103) -/

/-- `Fetch8()` (rule R102): `pc` advances whether or not the read was in range (D21, log entry 20). -/
def fetch8 (s : State) : Byte × State :=
  let (b, s1) := memRead8 s.pc.toNat s
  (b, s1.setPc (s1.pc + 1#32))

/-- `Fetch32()` (rule R103), with `IMM_FETCH` as an argument (D5): one checked word read, or four checked byte reads. -/
def fetch32 : ImmFetch → State → Word × State
  | .word, s =>
    let (v, s1) := memRead32 s.pc.toNat s
    (v, s1.setPc (s1.pc + 4#32))
  | .bytewise, s =>
    let (b0, s1) := fetch8 s
    let (b1, s2) := fetch8 s1
    let (b2, s3) := fetch8 s2
    let (b3, s4) := fetch8 s3
    (be32 b0 b1 b2 b3, s4)

/-- The fetch and decode of one instruction (rule R101, parts 1 and 2): the opcode byte, then the operand bytes of its
format in encoding order, all before any effect. `pc` ends past the instruction's last byte (rule R26). -/
def fetchInstr (f : ImmFetch) (s : State) : Instr × State :=
  let (op, s1) := fetch8 s
  match formatOf op with
  | .op => (decodeFields op 0#8 0#8 0#8 0#32, s1)
  | .opR =>
    let (r, s2) := fetch8 s1
    (decodeFields op r 0#8 0#8 0#32, s2)
  | .opC =>
    let (c, s2) := fetch8 s1
    (decodeFields op c 0#8 0#8 0#32, s2)
  | .opRRR =>
    let (d, s2) := fetch8 s1
    let (a, s3) := fetch8 s2
    let (b, s4) := fetch8 s3
    (decodeFields op d a b 0#32, s4)
  | .opRI =>
    let (r, s2) := fetch8 s1
    let (v, s3) := fetch32 f s2
    (decodeFields op r 0#8 0#8 v, s3)

/-! ### Register operands -/

/-- A register index that names one of the eight registers (rule R83). -/
def validReg (i : Byte) : Bool := i.toNat < Config.numRegs

/-- One `DIAG_BAD_REG` for each invalid index of the list. -/
def logBadRegs : List Byte → State → State
  | [], s => s
  | i :: is, s => logBadRegs is (if validReg i then s else s.logDiag .badReg)

/-- Performs an effect whose register operands are `regs` under a `BADREG_POLICY` (D4). Under `port_default` the effect
runs and its own `RegRead` and `RegWrite` treat an invalid index; under `squash_instruction` an invalid index leaves only
the diagnostics. -/
def withRegs (p : BadRegPolicy) (regs : List Byte) (effect : State → State) (s : State) : State :=
  match p with
  | .portDefault => effect s
  | .squashInstruction => if regs.all validReg then effect s else logBadRegs regs s

/-- The three-register shape `ALU(f)` (42_arithmetic.md rule R134): both sources are read before the destination is
written. `f` answers the result and, where it reports one, a diagnostic. -/
def aluOp (p : BadRegPolicy) (f : Word → Word → Word × Option Diag) (dst src1 src2 : Byte) (s : State) : State :=
  withRegs p [src1, src2, dst]
    (fun s =>
      let (a, s1) := regRead src1 s
      let (b, s2) := regRead src2 s1
      match f a b with
      | (v, none) => regWrite dst v s2
      | (v, some k) => regWrite dst v (s2.logDiag k))
    s

end Sys2Proof.Machine
end

