-- ==== Sys2Proof/Machine/Arith.lean ====
section
/-! DEFINITION. ADD, SUB, MUL and DIV (42_arithmetic.md). -/

namespace Sys2Proof.Machine

/-- ADD under a `BADREG_POLICY` (rules R130, R134). -/
def addUnder (p : BadRegPolicy) (dst src1 src2 : Byte) (s : State) : State := aluOp p addResult dst src1 src2 s

/-- SUB under a `BADREG_POLICY` (rules R131, R134). -/
def subUnder (p : BadRegPolicy) (dst src1 src2 : Byte) (s : State) : State := aluOp p subResult dst src1 src2 s

/-- MUL under a `BADREG_POLICY` (rules R132, R134). -/
def mulUnder (p : BadRegPolicy) (dst src1 src2 : Byte) (s : State) : State := aluOp p mulResult dst src1 src2 s

/-- DIV under a `BADREG_POLICY` (rules R133, R134). -/
def divUnder (p : BadRegPolicy) (dst src1 src2 : Byte) (s : State) : State := aluOp p divResult dst src1 src2 s

/-- The meaning of ADD (rule R130). -/
def execAdd (dst src1 src2 : Byte) (s : State) : Host.Outcome State Fault Refusal :=
  .next (addUnder Config.badRegPolicy dst src1 src2 s)

/-- The meaning of SUB (rule R131). -/
def execSub (dst src1 src2 : Byte) (s : State) : Host.Outcome State Fault Refusal :=
  .next (subUnder Config.badRegPolicy dst src1 src2 s)

/-- The meaning of MUL (rule R132). -/
def execMul (dst src1 src2 : Byte) (s : State) : Host.Outcome State Fault Refusal :=
  .next (mulUnder Config.badRegPolicy dst src1 src2 s)

/-- The meaning of DIV (rule R133). -/
def execDiv (dst src1 src2 : Byte) (s : State) : Host.Outcome State Fault Refusal :=
  .next (divUnder Config.badRegPolicy dst src1 src2 s)

end Sys2Proof.Machine
end

