-- ==== Sys2Proof/Machine/Control.lean ====
section
/-! DEFINITION. HALT and the unknown opcode (40_execution_loop.md). -/

namespace Sys2Proof.Machine

/-- The meaning of HALT (rule R107): the run stops, with no diagnostic. -/
def execHalt (s : State) : Host.Outcome State Fault Refusal := .next (s.setRunning false)

/-- The meaning of an opcode byte that names no instruction (rule R108). The event carries neither the byte nor its
address, which the rule leaves optional (D12, log entry 5). -/
def execUnknown (_op : Byte) (s : State) : Host.Outcome State Fault Refusal := .next (raiseUnknownOpcode s)

end Sys2Proof.Machine
end

