-- ==== Sys2Proof/Machine/LoadStore.lean ====
section
/-! DEFINITION. LOAD and STORE (41_load_store.md). -/

namespace Sys2Proof.Machine

/-- LOAD `reg`, `imm32` under a `BADREG_POLICY` (rule R120): the register gets the immediate. -/
def loadUnder (p : BadRegPolicy) (reg : Byte) (imm32 : Word) (s : State) : State :=
  withRegs p [reg] (regWrite reg imm32) s

/-- STORE `reg`, `addr32` under a `BADREG_POLICY` (rule R121): four bytes at the absolute address, most significant
first. -/
def storeUnder (p : BadRegPolicy) (reg : Byte) (addr32 : Word) (s : State) : State :=
  withRegs p [reg]
    (fun s =>
      let (v, s1) := regRead reg s
      memWrite32 addr32.toNat v s1)
    s

/-- The meaning of LOAD (rule R120). -/
def execLoad (reg : Byte) (imm32 : Word) (s : State) : Host.Outcome State Fault Refusal :=
  .next (loadUnder Config.badRegPolicy reg imm32 s)

/-- The meaning of STORE (rule R121). -/
def execStore (reg : Byte) (addr32 : Word) (s : State) : Host.Outcome State Fault Refusal :=
  .next (storeUnder Config.badRegPolicy reg addr32 s)

end Sys2Proof.Machine
end

