-- ==== Sys2Proof/Machine/Stack.lean ====
section
/-! DEFINITION. PUSH and POP (43_stack.md). -/

namespace Sys2Proof.Machine

/-- PUSH `reg` under a `BADREG_POLICY` (rule R152). -/
def pushUnder (p : BadRegPolicy) (reg : Byte) (s : State) : State :=
  withRegs p [reg]
    (fun s =>
      let (v, s1) := regRead reg s
      push v s1)
    s

/-- POP `reg` under a `BADREG_POLICY` (rule R153): the pop comes first, and a failed pop attempts no register write. -/
def popUnder (p : BadRegPolicy) (reg : Byte) (s : State) : State :=
  withRegs p [reg]
    (fun s =>
      match pop s with
      | (none, s1) => s1
      | (some v, s1) => regWrite reg v s1)
    s

/-- The meaning of PUSH (rule R152). -/
def execPush (reg : Byte) (s : State) : Host.Outcome State Fault Refusal :=
  .next (pushUnder Config.badRegPolicy reg s)

/-- The meaning of POP (rule R153). -/
def execPop (reg : Byte) (s : State) : Host.Outcome State Fault Refusal :=
  .next (popUnder Config.badRegPolicy reg s)

end Sys2Proof.Machine
end

