-- ==== Sys2Proof/Machine/Syscall.lean ====
section
/-! DEFINITION. SYSCALL and the Syscall Dispatcher (44_syscall.md). -/

namespace Sys2Proof.Machine

/-- The loop of PRINT_STRING from address `a` (rule R162). `fuel` bounds the number of bytes sent; `CAPACITY` is enough
from any address. -/
def printLoop : Nat → Nat → State → State
  | 0, _, s => s
  | fuel + 1, a, s =>
    if a < Config.capacity ∧ s.mem.read a ≠ 0#8 then printLoop fuel (a + 1) (s.emit (s.mem.read a)) else s

/-- PRINT_STRING (rule R162): the bytes from `x[0]` up to a zero byte or the end of memory go to `OUT`. The terminator is
not sent and nothing is added (D10: DESIGN CHOICE of the spec, unsafe, log entry 17). -/
def printString (s : State) : State := printLoop Config.capacity s.regs[0].toNat s

/-- The loop of LOAD_DATA from offset `i` (rule R163): check, then read and write one byte, in ascending order. `fuel`
bounds the number of rounds; `CAPACITY + 1` is enough from offset 0. -/
def copyLoop : Nat → (dst src n i : Nat) → State → State
  | 0, _, _, _, _, s => s
  | fuel + 1, dst, src, n, i, s =>
    if i < n then
      if src + i ≥ Config.capacity ∨ dst + i ≥ Config.capacity then s.logDiag .copyOor
      else copyLoop fuel dst src n (i + 1) (s.setByte (dst + i) (s.mem.read (src + i)))
    else s

/-- LOAD_DATA (rule R163): copies `x[2]` bytes from `x[1]` to `x[0]` inside memory. Its direction, its overlap behaviour
and the sums that do not wrap are the spec's D9 and D6: DESIGN CHOICE, unsafe, log entries 13 and 16. -/
def loadData (s : State) : State :=
  copyLoop (Config.capacity + 1) s.regs[0].toNat s.regs[1].toNat s.regs[2].toNat 0 s

/-- The Syscall Dispatcher (rules R160, R161, R164): one code byte selects the service. The general SYSCALL goes through it
whatever its code (log entry 25). -/
def dispatchService (code : Byte) (s : State) : State :=
  if code = 0x01#8 then printString s
  else if code = 0x02#8 then loadData s
  else s.logDiag .unknownSyscall

/-- The meaning of SYSCALL with code 0x01 (rule R162). -/
def execSyscallPrintString (s : State) : Host.Outcome State Fault Refusal := .next (dispatchService 0x01#8 s)

/-- The meaning of SYSCALL with code 0x02 (rule R163). -/
def execSyscallLoadData (s : State) : Host.Outcome State Fault Refusal := .next (dispatchService 0x02#8 s)

/-- The meaning of SYSCALL with a code byte (rule R160); every code but 0x01 and 0x02 only logs (rule R164). -/
def execSyscall (code : Byte) (s : State) : Host.Outcome State Fault Refusal := .next (dispatchService code s)

end Sys2Proof.Machine
end

