-- ==== Sys2Proof/Machine/Dispatch.lean ====
section
/-! DEFINITION. One arm per instruction (40_execution_loop.md rule R101, part 3). `pc` already stands past the
instruction's bytes when `exec` is called (10_state.md rule R26; DEDUCED, safe, log entry 30). -/

namespace Sys2Proof.Machine

def exec (i : Instr) (s : State) : Host.Outcome State Fault Refusal :=
  match i with
  | .halt => Sys2Proof.Machine.execHalt s
  | .load reg imm32 => Sys2Proof.Machine.execLoad reg imm32 s
  | .store reg addr32 => Sys2Proof.Machine.execStore reg addr32 s
  | .add dst src1 src2 => Sys2Proof.Machine.execAdd dst src1 src2 s
  | .sub dst src1 src2 => Sys2Proof.Machine.execSub dst src1 src2 s
  | .mul dst src1 src2 => Sys2Proof.Machine.execMul dst src1 src2 s
  | .div dst src1 src2 => Sys2Proof.Machine.execDiv dst src1 src2 s
  | .push reg => Sys2Proof.Machine.execPush reg s
  | .pop reg => Sys2Proof.Machine.execPop reg s
  | .syscallPrintString => Sys2Proof.Machine.execSyscallPrintString s
  | .syscallLoadData => Sys2Proof.Machine.execSyscallLoadData s
  | .syscall code => Sys2Proof.Machine.execSyscall code s
  | .unknown op => Sys2Proof.Machine.execUnknown op s

end Sys2Proof.Machine
end

