-- ==== Sys2Proof/Machine/HostOps.lean ====
section
/-! DEFINITION. The five host transactions (45_host_operations.md, 70_reset_and_hazards.md rule R230) and what a power
cycle leaves (60_exceptions.md rule R215). -/

namespace Sys2Proof.Machine

/-- `RestoreImage(backing)` (rule R186): the memory image of a backing file, and whether it warns. A file of the wrong
length gives `MISMATCH_IMAGE`, which is open (log entry 1). -/
def restoreImage : Option (List Byte) → Memory × Bool
  | none => ([], true)
  | some bytes =>
    if bytes.length = Config.capacity then (Memory.ofImage fun a => bytes.getD a 0#8, false)
    else (Memory.ofImage (Config.mismatchImage bytes), true)

/-- `reset()` (rules R230, R232, R234): every piece of the block's state; the backing image and `OUT` stay, `DIAG` gains
at most the warning of `restore()`. -/
def hostReset (s : State) : State :=
  let (image, warns) := restoreImage s.backing
  let s1 := if warns then s.logDiag .restoreWarn else s
  { s1 with
    regs := Vector.replicate Config.numRegs 0#32
    pc := 0#32
    running := false
    sp := BitVec.ofNat Config.spBits Config.spEmpty
    stack := []
    mem := image }

/-- `loadProgram(data, size)` (rule R181): the first `min(size, CAPACITY)` bytes of `data` go to address 0 upward, and
nothing else changes. Too little data is refused (D18, log entry 21). -/
def hostLoadProgram (data : List Byte) (size : Nat) (s : State) : Host.Outcome State Fault Refusal :=
  let n := min size Config.capacity
  if data.length < n then .refused (.shortProgramData data.length n)
  else .next { s with mem := s.mem.writeBytes 0 (data.take n) }

/-- `persistState()` (rule R188): the backing image becomes the `CAPACITY` bytes of memory. It cannot fail (D25, log
entry 22). -/
def hostPersist (s : State) : State := { s with backing := some s.mem.toBytes }

/-- `printState()` (rule R189): one event with `pc` and the registers, and no other change (D24, log entry 28). -/
def hostPrint (s : State) : State := s.logDiag (.stateDump s.pc s.regs)

/-- One host transaction (rules R180, R190), atomic. -/
def hostTransact (op : HostOp) (s : State) : Host.Outcome State Fault Refusal :=
  match op with
  | .reset => .next (hostReset s)
  | .loadProgram data size => hostLoadProgram data size s
  | .run => .next (enterRun s)
  | .printState => .next (hostPrint s)
  | .persistState => .next (hostPersist s)

/-- The state after a power cycle (rule R215, D14, log entry 3): the block resets itself, whatever it was doing, and only
the backing image has survived. No step takes it: it comes from outside the machine (log entry 23). -/
def powerCycle (s : State) : State := hostReset s

end Sys2Proof.Machine
end

