-- ==== Sys2Proof/Machine/Step.lean ====
section
/-! DEFINITION. One step of the machine. While the loop is active it is `Step()` of 40_execution_loop.md rule R101; while
the engine is stopped only the host moves (93_implementation_defined.md, 45_host_operations.md rule R180). -/

namespace Sys2Proof.Machine

/-- `Step()` (rule R101): fetch the whole instruction, perform it, then the end-of-memory check. One instruction is one
step (D2: DESIGN CHOICE of the spec, safe, log entry 19). -/
def engineStep (s : State) : Host.Outcome State Fault Refusal :=
  let (i, s1) := fetchInstr Config.immFetch s
  onNext endCheck (exec i s1)

/-- The host's next transaction, if one is pending; with none the stopped machine stays as it is (log entries 6, 7
and 24). -/
def hostStep (s : State) : Host.Outcome State Fault Refusal :=
  match s.pending with
  | [] => .next s
  | op :: rest => hostTransact op { s with pending := rest }

/-- One step: an instruction while `running` and `pc < CAPACITY`; the loop's exit while `running` and `pc >= CAPACITY`
(rule R100); the host's move while `running` is false. -/
def step (s : State) : Host.Outcome State Fault Refusal :=
  if s.active then engineStep s
  else if s.running then .next (s.setRunning false)
  else hostStep s

/-- The state with the instruction of an opcode-table word stored at `pc` and the loop active, so that the next step
fetches and runs it: it stands for the host's `loadProgram` and `run` (log entry 9). Bytes past the end of memory are
dropped. -/
def State.withFetchWord (s : State) (nbits w : Nat) : State :=
  { s with
    running := true
    mem := s.mem.writeBytes s.pc.toNat ((tableBytes nbits w).take (Config.capacity - s.pc.toNat)) }

end Sys2Proof.Machine
end

