-- ==== Sys2Proof/Safety.lean ====
section
/-! DEFINITION. The terms in which claims about a run are stated: what a step emitted, the machine's invariant, the effect
and the step under every policy, the stop cause of a run, a whole run. -/

namespace Sys2Proof.Machine

/-! ### Reading the machine as the spec's notation does -/

/-- The value a register index byte contributes as a source (10_state.md rule R23): `x[i]`, or 0 for an index of 8 or
more (D4, log entry 11). -/
def State.regValue (s : State) (i : Byte) : Word := if h : i.toNat < Config.numRegs then s.regs[i.toNat] else 0#32

/-- The number of values on the stack (10_state.md rule R35): how far `sp` stands below `SP_EMPTY`. -/
def State.depth (s : State) : Nat := Config.spEmpty - s.sp.toNat

/-- The memory holds these bytes from address `a` upward, all of them below `CAPACITY`. -/
def State.holdsBytes (s : State) (a : Nat) (bs : List Byte) : Prop :=
  a + bs.length ≤ Config.capacity ∧ ∀ k : Nat, k < bs.length → s.mem.read (a + k) = bs.getD k 0#8

/-- The diagnostics of `t` continue those of `s`, and an event of kind `k` is among the new ones. -/
def Emitted (k : Diag) (s t : State) : Prop := ∃ new : List Diag, t.diag = s.diag ++ new ∧ k ∈ new

/-- The number of bytes of the instruction that an opcode byte begins (30_encoding.md rule R82, its table). -/
def specLength (op : Byte) : Nat :=
  if op = 0x01#8 then 1
  else if op = 0x30#8 ∨ op = 0x31#8 ∨ op = 0xFF#8 then 2
  else if op = 0x20#8 ∨ op = 0x21#8 ∨ op = 0x22#8 ∨ op = 0x23#8 then 4
  else if op = 0x10#8 ∨ op = 0x11#8 then 6
  else 1

/-! ### The invariant of the machine -/

/-- What every step keeps (rules R27, R32, R34, R35, R38): memory and stack in canonical form, so that no byte outside
mem[0..4095] and no slot outside stack[0..255] exists; slot 0 never written; `pc` at most 4101; an active run has an
instruction to fetch. -/
structure State.Inv (s : State) : Prop where
  /-- The Memory Store is canonical. -/
  mem : s.mem.wf
  /-- The Operand Stack is canonical. -/
  stack : s.stack.wf
  /-- `stack[0]` keeps its reset value (rule R35). -/
  slot0 : s.stack.read 0 = 0#32
  /-- `pc` never exceeds 4101 (rule R27). -/
  pc : s.pc.toNat ≤ 4101
  /-- While a run is in progress `pc` is below `CAPACITY` between steps (rules R100, R105). -/
  running : s.running = true → s.pc.toNat < Config.capacity

/-! ### Effects under either policy -/

/-- The effect of an instruction under a `BADREG_POLICY` (D4). -/
def effectUnder (p : BadRegPolicy) (i : Instr) (s : State) : State :=
  match i with
  | .halt => s.setRunning false
  | .load r v => loadUnder p r v s
  | .store r a => storeUnder p r a s
  | .add d a b => addUnder p d a b s
  | .sub d a b => subUnder p d a b s
  | .mul d a b => mulUnder p d a b s
  | .div d a b => divUnder p d a b s
  | .push r => pushUnder p r s
  | .pop r => popUnder p r s
  | .syscallPrintString => printString s
  | .syscallLoadData => loadData s
  | .syscall c => dispatchService c s
  | .unknown _ => raiseUnknownOpcode s

/-- `Step()` under a `BADREG_POLICY` and an `IMM_FETCH` (92_eei_decisions.md D4, D5). -/
def engineStepUnder (p : BadRegPolicy) (f : ImmFetch) (s : State) : State :=
  endCheck (effectUnder p (fetchInstr f s).1 (fetchInstr f s).2)

/-! ### Sequences -/

/-- Performs instructions one after another through `exec`, as a straight-line program does. -/
def execMany : List Instr → State → Host.Outcome State Fault Refusal
  | [], s => .next s
  | i :: is, s =>
    match exec i s with
    | .next t => execMany is t
    | .fault r => .fault r
    | .refused r => .refused r

/-- `n` pops in a row: the values in the order they come, `none` for a failed pop, and the state after them. -/
def popMany : Nat → State → List (Option Word) × State
  | 0, s => ([], s)
  | n + 1, s => ((pop s).1 :: (popMany n (pop s).2).1, (popMany n (pop s).2).2)

/-! ### Runs -/

/-- Why a run ended (40_execution_loop.md rule R110; D20, log entry 27): a label of the run, not machine
state. -/
inductive StopCause where
  /-- `STOP_HALT`. -/
  | halt
  /-- `STOP_UNKNOWN_OPCODE`. -/
  | unknownOpcode
  /-- `STOP_PC_END`. -/
  | pcEnd
deriving DecidableEq, Repr

/-- The stop cause of the step that executes `i` and leaves the state `t`, if the run ends with it; an instruction's own
cause comes before the end of memory (rule R110). -/
def stopCauseOf (i : Instr) (t : State) : Option StopCause :=
  match i with
  | .halt => some .halt
  | .unknown _ => some .unknownOpcode
  | _ => if Config.capacity ≤ t.pc.toNat then some .pcEnd else none

/-- The loop of `run()` with at most `fuel` steps: the final state and the stop cause, `none` if the fuel ran out
first. -/
def runLoop : Nat → State → State × Option StopCause
  | 0, s => (s, none)
  | fuel + 1, s =>
    if s.active then
      let t := engineStepUnder Config.badRegPolicy Config.immFetch s
      match stopCauseOf (fetchInstr Config.immFetch s).1 t with
      | some c => (t, some c)
      | none => runLoop fuel t
    else (s.setRunning false, some .pcEnd)

/-- A whole `run()` (rules R100, R182): 4096 steps suffice (rule R106). -/
def runWhole (s : State) : State × Option StopCause := runLoop Config.capacity (s.setRunning true)

end Sys2Proof.Machine
end

