-- ==== Sys2Proof/Certificates/Slice0/Obligations.lean ====
section
/-! DEFINITION. The statements for the provers, each from numbered rules of spec/. A statement on the exec side is about the
state in which `pc` already stands past the instruction's bytes (10_state.md rule R26); one on the step side begins at the
opcode byte. -/

open Sys2Proof Sys2Proof.Machine

/-! ### Encoding (30_encoding.md) -/

/-- Rules R80, R81, R84, R90, R95: decoding the bytes of a well-formed instruction, with any bytes after them, gives the
instruction and those bytes. -/
def Obligations.DecodeOfEncode : Prop :=
  ∀ (i : Instr) (rest : List Byte), i.wf = true → decode (encode i ++ rest) = .ok (i, rest)

/-- Rules R80, R81, R84, R86, R90, R95: whatever decodes is a well-formed instruction and is its encoding. -/
def Obligations.EncodeOfDecode : Prop :=
  ∀ (bs : List Byte) (i : Instr) (rest : List Byte), decode bs = .ok (i, rest) → i.wf = true ∧ bs = encode i ++ rest

/-- Words written out from the formats of rule R81 and the map of rule R84 (they stand in 95_test_vectors.md part 2.1). -/
def Obligations.SpecWordsDecode : Prop :=
  decode [0x01#8] = .ok (.halt, []) ∧
  decode [0x10#8, 0x03#8, 0x12#8, 0x34#8, 0x56#8, 0x78#8] = .ok (.load 3#8 0x12345678#32, []) ∧
  decode [0x11#8, 0x00#8, 0x00#8, 0x00#8, 0x00#8, 0x10#8] = .ok (.store 0#8 0x10#32, []) ∧
  decode [0x21#8, 0x03#8, 0x01#8, 0x00#8] = .ok (.sub 3#8 1#8 0#8, []) ∧
  decode [0x31#8, 0xFF#8] = .ok (.pop 255#8, []) ∧
  decode [0xFF#8, 0x02#8] = .ok (.syscallLoadData, []) ∧
  decode [0xFF#8, 0x00#8] = .ok (.syscall 0#8, []) ∧
  decode [0xAB#8] = .ok (.unknown 0xAB#8, [])

/-- Rule R82: the opcode byte alone fixes the length. With fewer bytes than that there is no instruction; with that many or
more, decoding takes exactly that many. -/
def Obligations.LengthFromOpcodeAlone : Prop :=
  ∀ (op : Byte) (operands : List Byte),
    (specLength op ≤ operands.length + 1 →
      ∃ (i : Instr) (rest : List Byte),
        decode (op :: operands) = .ok (i, rest) ∧ operands.length + 1 = specLength op + rest.length ∧
        i.length = specLength op) ∧
    (operands.length + 1 < specLength op → decode (op :: operands) = .error (.truncated op))

/-- Rule R86: every opcode byte that is not one of the ten is unknown, 0x00 among them; it consumes only itself, and all of
them behave alike: a diagnostic and `running` false. -/
def Obligations.UnknownOpcodeBytes : Prop :=
  definedOpcodes = [0x01#8, 0x10#8, 0x11#8, 0x20#8, 0x21#8, 0x22#8, 0x23#8, 0x30#8, 0x31#8, 0xFF#8] ∧
  (∀ (op : Byte) (rest : List Byte),
    (op ∉ definedOpcodes → decode (op :: rest) = .ok (.unknown op, rest)) ∧
    (op ∈ definedOpcodes → ∀ (o : Byte) (tail : List Byte), decode (op :: rest) ≠ .ok (.unknown o, tail))) ∧
  (∀ (op : Byte) (s : State),
    ∃ t : State, exec (.unknown op) s = .next t ∧ t.running = false ∧ Emitted .unknownOpcode s t)

/-! ### Fetch and step (40_execution_loop.md) -/

/-- Rules R91, R102, R103 (with the spec's decisions D5 and D21, log entries 12 and 20): what the fetch of an instruction
at any `pc` below 4096 reads, how far it moves `pc`, and that a diagnostic is logged exactly when it ran past the end of
memory. -/
def Obligations.FetchReadsOperands : Prop :=
  ∀ s : State, s.pc.toNat < Config.capacity →
    let byteAt : Nat → Byte := fun k =>
      if s.pc.toNat + k < Config.capacity then s.mem.read (s.pc.toNat + k) else 0#8
    let word : Word :=
      if s.pc.toNat + 5 < Config.capacity then be32 (byteAt 2) (byteAt 3) (byteAt 4) (byteAt 5) else 0#32
    let len := specLength (byteAt 0)
    ∃ new : List Diag,
      fetchInstr Config.immFetch s =
        (decodeFields (byteAt 0) (byteAt 1) (byteAt 2) (byteAt 3) word,
          { s with pc := s.pc + BitVec.ofNat 32 len, diag := s.diag ++ new }) ∧
      (∀ k ∈ new, k = .memReadOor) ∧
      (new = [] ↔ s.pc.toNat + len ≤ Config.capacity)

/-- Rule R101: while the loop is active and the bytes at `pc` decode to an instruction, a step is exec of it with `pc`
moved past its bytes, followed by the end-of-memory check. -/
def Obligations.StepRunsDecoded : Prop :=
  ∀ (s : State) (bs rest : List Byte) (i : Instr),
    s.active = true → s.holdsBytes s.pc.toNat bs → decode bs = .ok (i, rest) →
      step s = onNext endCheck (exec i (s.setPc (s.pc + BitVec.ofNat 32 i.length)))

/-- Rule R101, with 95_test_vectors.md Q1: while the loop is active a step always answers a next state. -/
def Obligations.ActiveStepCompletes : Prop :=
  ∀ s : State, s.active = true → ∃ t : State, step s = .next t

/-- Rules R28 and R104 (beyond the end of memory the spec's decision D21, log entry 20): an active step adds to `pc` the
length of the opcode at `pc`, whatever fault occurs; no effect
writes `pc`; and a step that moves `pc` is an active step or the host's reset. -/
def Obligations.PcAdvancesByLength : Prop :=
  (∀ s : State, s.active = true →
    ∃ t : State, step s = .next t ∧ t.pc.toNat = s.pc.toNat + specLength (s.mem.read s.pc.toNat)) ∧
  (∀ (i : Instr) (s t : State), exec i s = .next t → t.pc = s.pc) ∧
  (∀ s t : State, step s = .next t →
    t.pc = s.pc ∨ s.active = true ∨ (∃ rest, s.pending = .reset :: rest ∧ t.pc = 0#32))

/-- Rule R105: after an instruction `pc` at or beyond 4096 ends the run; the instruction keeps its whole effect, and the
check itself changes nothing else. Below 4096 the run goes on unless the instruction itself stopped it. -/
def Obligations.EndOfMemoryStopsRun : Prop :=
  ∀ s : State, s.active = true →
    ∃ u t : State,
      exec (fetchInstr Config.immFetch s).1 (fetchInstr Config.immFetch s).2 = .next u ∧ step s = .next t ∧
      t = { u with running := t.running } ∧
      t.running = (u.running && decide (u.pc.toNat < Config.capacity))

/-- Rules R106 and R112: from every state with `running` true the run is over after at most 4096 steps. That `running` is
false also when `pc` is at or beyond 4096 to begin with is the spec's decision D11 (log entry 8). -/
def Obligations.RunTerminates : Prop :=
  ∀ s : State, s.running = true →
    ∃ (k : Nat) (t : State), k ≤ 4096 ∧ Sys2Proof.core.run k s = .next t ∧ t.running = false

/-- Rules R110 and R112 (the labels are the spec's decision D20, log entry 27; that `running` is false after a run with
nothing to fetch is its decision D11, log entry 8): a whole run ends with one stop cause, its final state is the one the
machine's own steps reach, and `pc` stands where the table says; its upper bound 4101 for the end of memory is that of
rule R27, which the run's first `pc` must meet. The last step, from a state `u`, decides the cause: HALT and an unknown
opcode report their own, wherever they stand. -/
def Obligations.RunHasStopCause : Prop :=
  ∀ s : State, ∃ (k : Nat) (u t : State) (c : StopCause),
    runWhole s = (t, some c) ∧ k + 1 ≤ 4096 ∧
    Sys2Proof.core.run k (s.setRunning true) = .next u ∧ u.running = true ∧ step u = .next t ∧
    Sys2Proof.core.run (k + 1) (s.setRunning true) = .next t ∧ t.running = false ∧
    (c = if Config.capacity ≤ u.pc.toNat then .pcEnd
      else if u.mem.read u.pc.toNat = 0x01#8 then .halt
      else if u.mem.read u.pc.toNat ∉ definedOpcodes then .unknownOpcode
      else .pcEnd) ∧
    (c = .halt → t.pc.toNat = u.pc.toNat + 1 ∧ t.mem.read (t.pc.toNat - 1) = 0x01#8) ∧
    (c = .unknownOpcode →
      t.pc.toNat = u.pc.toNat + 1 ∧ t.mem.read (t.pc.toNat - 1) ∉ definedOpcodes ∧ Emitted .unknownOpcode s t) ∧
    (c = .pcEnd → Config.capacity ≤ t.pc.toNat ∧ (s.pc.toNat ≤ 4101 → t.pc.toNat ≤ 4101))

/-- Rule R246: a step from an even `pc` leaves `pc` even or the run over. -/
def Obligations.RunStaysEven : Prop :=
  ∀ s t : State, s.active = true → s.pc.toNat % 2 = 0 → step s = .next t →
    t.running = true → t.pc.toNat % 2 = 0

/-! ### Registers and memory (10_state.md, 20_memory.md) -/

/-- Rule R24: a checked register write sets the named register and nothing else; an invalid index changes no register and
logs. -/
def Obligations.RegisterWritePort : Prop :=
  ∀ (i : Byte) (v : Word) (s : State),
    (∀ h : i.toNat < 8, regWrite i v s = { s with regs := s.regs.set i.toNat v h }) ∧
    (8 ≤ i.toNat → regWrite i v s = { s with diag := s.diag ++ [.badReg] })

/-- Rule R23 (that a bad index delivers 0 is the spec's decision D4, log entry 11): a checked register read. -/
def Obligations.RegisterReadPort : Prop :=
  ∀ (i : Byte) (s : State),
    (∀ h : i.toNat < 8, regRead i s = (s.regs[i.toNat], s)) ∧
    (8 ≤ i.toNat → regRead i s = (0#32, { s with diag := s.diag ++ [.badReg] }))

/-- Rules R50 and R51: the byte operations. In range a read gives the byte and a write sets it and no other; out of range a
read gives 0, a write changes nothing, and each logs. -/
def Obligations.ByteAccess : Prop :=
  ∀ (addr : Nat) (b : Byte) (s : State), s.mem.wf →
    (addr < 4096 →
      memRead8 addr s = (s.mem.read addr, s) ∧
      ∃ t : State, memWrite8 addr b s = t ∧ t = { s with mem := t.mem } ∧
        ∀ k : Nat, t.mem.read k = if k = addr then b else s.mem.read k) ∧
    (4096 ≤ addr →
      memRead8 addr s = (0#8, { s with diag := s.diag ++ [.memReadOor] }) ∧
      memWrite8 addr b s = { s with diag := s.diag ++ [.memWriteOor] })

/-- Rules R52, R53, R56 and R57 (that the sum does not wrap is the spec's decision D6, log entry 13): the word operations
are big-endian, all or nothing, with no alignment; a word read after a word write gives the word. -/
def Obligations.WordAccess : Prop :=
  ∀ (addr : Nat) (v : Word) (s : State), s.mem.wf →
    (addr ≤ 4092 →
      memRead32 addr s =
        (be32 (s.mem.read addr) (s.mem.read (addr + 1)) (s.mem.read (addr + 2)) (s.mem.read (addr + 3)), s) ∧
      ∃ t : State, memWrite32 addr v s = t ∧ t = { s with mem := t.mem } ∧ (memRead32 addr t).1 = v ∧
        t.mem.read addr = v.extractLsb' 24 8 ∧ t.mem.read (addr + 1) = v.extractLsb' 16 8 ∧
        t.mem.read (addr + 2) = v.extractLsb' 8 8 ∧ t.mem.read (addr + 3) = v.extractLsb' 0 8 ∧
        ∀ k : Nat, (k < addr ∨ addr + 3 < k) → t.mem.read k = s.mem.read k) ∧
    (4093 ≤ addr →
      memRead32 addr s = (0#32, { s with diag := s.diag ++ [.memReadOor] }) ∧
      memWrite32 addr v s = { s with diag := s.diag ++ [.memWriteOor] })

/-! ### HALT and UNKNOWN (40_execution_loop.md) -/

/-- Rule R107: HALT clears `running`, moves `pc` by 1 and changes nothing else. -/
def Obligations.HaltStops : Prop :=
  (∀ s : State, exec .halt s = .next { s with running := false }) ∧
  (∀ s : State, s.active = true → s.mem.read s.pc.toNat = 0x01#8 →
    step s = .next { s with pc := s.pc + 1#32, running := false })

/-- Rule R108: an unknown opcode byte logs, clears `running`, moves `pc` by 1 and changes nothing else. -/
def Obligations.UnknownOpcodeStops : Prop :=
  (∀ (op : Byte) (s : State),
    exec (.unknown op) s = .next { s with diag := s.diag ++ [.unknownOpcode], running := false }) ∧
  (∀ s : State, s.active = true → s.mem.read s.pc.toNat ∉ definedOpcodes →
    step s = .next { s with pc := s.pc + 1#32, diag := s.diag ++ [.unknownOpcode], running := false })

/-! ### LOAD and STORE (41_load_store.md) -/

/-- Rule R120: LOAD puts the immediate in the register and changes nothing else; an invalid index changes no register and
logs; from its six bytes a step moves `pc` by 6 in either case. Operand bytes beyond 4095 are the matter of
FetchReadsOperands. -/
def Obligations.LoadSetsRegister : Prop :=
  (∀ (r : Byte) (v : Word) (s : State),
    (∀ h : r.toNat < 8, exec (.load r v) s = .next { s with regs := s.regs.set r.toNat v h }) ∧
    (8 ≤ r.toNat → exec (.load r v) s = .next { s with diag := s.diag ++ [.badReg] })) ∧
  (∀ (r b0 b1 b2 b3 : Byte) (s : State), s.active = true →
    s.holdsBytes s.pc.toNat [0x10#8, r, b0, b1, b2, b3] →
    ∃ t : State, step s = .next t ∧ t.pc.toNat = s.pc.toNat + 6 ∧
      (t.running = true ↔ s.pc.toNat + 6 < 4096) ∧
      ∀ j : Fin 8, t.regs[j] =
        if j.val = r.toNat then
          BitVec.ofNat 32 (b0.toNat * 0x1000000 + b1.toNat * 0x10000 + b2.toNat * 0x100 + b3.toNat)
        else s.regs[j])

/-- Rule R121 (a bad index stores 0: the spec's decision D4, log entry 11; no wrap: D6, log entry 13; the bad index is
logged before the bad address: D16, log entry 5): STORE completes on every operand; up to address 4092 it sets exactly the
four bytes from its operand address, most significant first; above, no byte of memory changes and it logs; registers, stack
and everything else stay. -/
def Obligations.StoreSetsFourBytes : Prop :=
  ∀ (r : Byte) (a : Word) (s : State), s.mem.wf →
    ∃ (t : State) (new : List Diag),
      exec (.store r a) s = .next t ∧ t = { s with mem := t.mem, diag := s.diag ++ new } ∧
      (new = (if 8 ≤ r.toNat then [.badReg] else []) ++ (if 4093 ≤ a.toNat then [.memWriteOor] else [])) ∧
      (a.toNat ≤ 4092 →
        t.mem.read a.toNat = (s.regValue r).extractLsb' 24 8 ∧
        t.mem.read (a.toNat + 1) = (s.regValue r).extractLsb' 16 8 ∧
        t.mem.read (a.toNat + 2) = (s.regValue r).extractLsb' 8 8 ∧
        t.mem.read (a.toNat + 3) = (s.regValue r).extractLsb' 0 8 ∧
        ∀ k : Nat, (k < a.toNat ∨ a.toNat + 3 < k) → t.mem.read k = s.mem.read k) ∧
      (4093 ≤ a.toNat → t.mem = s.mem)

/-- Rule R64: a stored instruction is the one executed. A STORE of a register to the address right after itself is
followed by the step of whatever instruction the register's four bytes decode to. -/
def Obligations.StoredBytesAreFetched : Prop :=
  ∀ (r : Byte) (s : State) (h : r.toNat < 8) (i : Instr) (rest : List Byte),
    s.active = true → s.mem.wf → s.pc.toNat + 10 ≤ Config.capacity →
    s.holdsBytes s.pc.toNat (encode (.store r (s.pc + 6#32))) →
    decode (beBytes s.regs[r.toNat]) = .ok (i, rest) →
    ∃ t : State, step s = .next t ∧ t.pc = s.pc + 6#32 ∧ t.regs = s.regs ∧ t.active = true ∧
      step t = onNext endCheck (exec i (t.setPc (t.pc + BitVec.ofNat 32 i.length)))

/-! ### ADD, SUB, MUL, DIV (42_arithmetic.md) -/

/-- Rule R130: ADD with valid registers writes the sum modulo 2^32 and changes nothing else; from its four bytes a step also
moves `pc` by 4. -/
def Obligations.AddWraps : Prop :=
  (∀ (d a b : Byte) (s : State) (hd : d.toNat < 8) (ha : a.toNat < 8) (hb : b.toNat < 8),
    exec (.add d a b) s =
      .next { s with
        regs := s.regs.set d.toNat
          (BitVec.ofNat 32 ((s.regs[a.toNat].toNat + s.regs[b.toNat].toNat) % 0x100000000)) hd }) ∧
  (∀ (d a b : Byte) (s : State) (hd : d.toNat < 8) (ha : a.toNat < 8) (hb : b.toNat < 8),
    s.active = true → s.holdsBytes s.pc.toNat [0x20#8, d, a, b] →
    step s =
      .next { s with
        pc := s.pc + 4#32
        running := decide (s.pc.toNat + 4 < 4096)
        regs := s.regs.set d.toNat
          (BitVec.ofNat 32 ((s.regs[a.toNat].toNat + s.regs[b.toNat].toNat) % 0x100000000)) hd })

/-- Rule R131: SUB with valid registers writes `a - b` if `a >= b`, else `2^32 + a - b`, and changes nothing else; from its
four bytes a step also moves `pc` by 4. -/
def Obligations.SubWraps : Prop :=
  let diff : Word → Word → Word := fun x y =>
    if y.toNat ≤ x.toNat then BitVec.ofNat 32 (x.toNat - y.toNat) else BitVec.ofNat 32 (0x100000000 + x.toNat - y.toNat)
  (∀ (d a b : Byte) (s : State) (hd : d.toNat < 8) (ha : a.toNat < 8) (hb : b.toNat < 8),
    exec (.sub d a b) s =
      .next { s with regs := s.regs.set d.toNat (diff s.regs[a.toNat] s.regs[b.toNat]) hd }) ∧
  (∀ (d a b : Byte) (s : State) (hd : d.toNat < 8) (ha : a.toNat < 8) (hb : b.toNat < 8),
    s.active = true → s.holdsBytes s.pc.toNat [0x21#8, d, a, b] →
    step s =
      .next { s with
        pc := s.pc + 4#32
        running := decide (s.pc.toNat + 4 < 4096)
        regs := s.regs.set d.toNat (diff s.regs[a.toNat] s.regs[b.toNat]) hd })

/-- Rule R132: MUL with valid registers writes the low 32 bits of the product and changes nothing else; from its four bytes
a step also moves `pc` by 4. -/
def Obligations.MulKeepsLowHalf : Prop :=
  (∀ (d a b : Byte) (s : State) (hd : d.toNat < 8) (ha : a.toNat < 8) (hb : b.toNat < 8),
    exec (.mul d a b) s =
      .next { s with
        regs := s.regs.set d.toNat
          (BitVec.ofNat 32 ((s.regs[a.toNat].toNat * s.regs[b.toNat].toNat) % 0x100000000)) hd }) ∧
  (∀ (d a b : Byte) (s : State) (hd : d.toNat < 8) (ha : a.toNat < 8) (hb : b.toNat < 8),
    s.active = true → s.holdsBytes s.pc.toNat [0x22#8, d, a, b] →
    step s =
      .next { s with
        pc := s.pc + 4#32
        running := decide (s.pc.toNat + 4 < 4096)
        regs := s.regs.set d.toNat
          (BitVec.ofNat 32 ((s.regs[a.toNat].toNat * s.regs[b.toNat].toNat) % 0x100000000)) hd })

/-- Rule R133 (that the division is unsigned is the spec's decision D7, log entry 14): DIV with valid registers writes the
floor of the quotient; with a zero divisor it writes 0, logs, and the run goes on; nothing else changes. -/
def Obligations.DivFloorsOrZeroes : Prop :=
  (∀ (d a b : Byte) (s : State) (hd : d.toNat < 8) (ha : a.toNat < 8) (hb : b.toNat < 8),
    (s.regs[b.toNat] ≠ 0#32 →
      exec (.div d a b) s =
        .next { s with
          regs := s.regs.set d.toNat (BitVec.ofNat 32 (s.regs[a.toNat].toNat / s.regs[b.toNat].toNat)) hd }) ∧
    (s.regs[b.toNat] = 0#32 →
      exec (.div d a b) s =
        .next { s with regs := s.regs.set d.toNat 0#32 hd, diag := s.diag ++ [.divZero] })) ∧
  (∀ (d a b : Byte) (s : State) (hd : d.toNat < 8) (ha : a.toNat < 8) (hb : b.toNat < 8),
    s.active = true → s.holdsBytes s.pc.toNat [0x23#8, d, a, b] →
    ∃ t : State, step s = .next t ∧ t.pc.toNat = s.pc.toNat + 4 ∧ (t.running = true ↔ s.pc.toNat + 4 < 4096) ∧
      t.regs[d.toNat] =
        if s.regs[b.toNat] = 0#32 then 0#32 else BitVec.ofNat 32 (s.regs[a.toNat].toNat / s.regs[b.toNat].toNat))

/-- Rule R134 with R23, R24 and R207, the four results those of R130 to R133 (bad indices and the order of diagnostics are
the spec's decisions D4 and D16, log entries 5 and 11; that DIV is the quotient of naturals is its D7, log entry 14): the
four instructions on ANY register indices: a bad source counts as 0, a bad destination is dropped, sources are read before
the destination is written, the diagnostics come in the order src1, src2, division, dst, and nothing but registers and DIAG
changes. -/
def Obligations.AluAnyIndices : Prop :=
  ∀ (d a b : Byte) (s : State) (i : Instr) (f : Nat → Nat → Nat),
    (i = .add d a b ∧ f = fun x y => (x + y) % 0x100000000) ∨
    (i = .sub d a b ∧ f = fun x y => (x + 0x100000000 - y) % 0x100000000) ∨
    (i = .mul d a b ∧ f = fun x y => (x * y) % 0x100000000) ∨
    (i = .div d a b ∧ f = fun x y => if y = 0 then 0 else x / y) →
    ∃ t : State, exec i s = .next t ∧ t = { s with regs := t.regs, diag := t.diag } ∧
      (∀ j : Fin 8, t.regs[j] =
        if j.val = d.toNat then BitVec.ofNat 32 (f (s.regValue a).toNat (s.regValue b).toNat) else s.regs[j]) ∧
      t.diag = s.diag ++
        ((if 8 ≤ a.toNat then [.badReg] else []) ++ (if 8 ≤ b.toNat then [.badReg] else []) ++
          (if i = .div d a b ∧ s.regValue b = 0#32 then [.divZero] else []) ++
          (if 8 ≤ d.toNat then [.badReg] else []))

/-- Rule R135: the laws of the arithmetic on 32-bit naturals, and the table of DIV by operand class. -/
def Obligations.ArithmeticLaws : Prop :=
  (∀ a b c : Word,
    (addResult a b).1 = (addResult b a).1 ∧
    (subResult (addResult a b).1 b).1 = a ∧
    (mulResult a b).1 = (mulResult b a).1 ∧
    (mulResult a (addResult b c).1).1 = (addResult (mulResult a b).1 (mulResult a c).1).1 ∧
    (addResult a b).2 = none ∧ (subResult a b).2 = none ∧ (mulResult a b).2 = none) ∧
  (∀ a b : Word,
    (b = 0#32 → divResult a b = (0#32, some .divZero)) ∧
    (b ≠ 0#32 →
      (divResult a b).2 = none ∧
      (∃ r : Nat, r < b.toNat ∧ a.toNat = b.toNat * (divResult a b).1.toNat + r) ∧
      (a.toNat < b.toNat → (divResult a b).1 = 0#32) ∧
      (b.toNat ≤ a.toNat → 1 ≤ (divResult a b).1.toNat ∧ (divResult a b).1.toNat ≤ a.toNat)))

/-! ### PUSH and POP (43_stack.md) -/

/-- Rule R150: a push on a full stack fails: it logs, and `sp` and every slot stay; else it stores at slot `sp`, then
decrements `sp`. -/
def Obligations.PushPrimitive : Prop :=
  ∀ (v : Word) (s : State), s.stack.wf →
    (s.sp = 0#8 → push v s = { s with diag := s.diag ++ [.stackOverflow] }) ∧
    (s.sp ≠ 0#8 →
      ∃ t : State, push v s = t ∧ t = { s with stack := t.stack, sp := t.sp } ∧ t.sp.toNat = s.sp.toNat - 1 ∧
        ∀ j : Nat, t.stack.read j = if j = s.sp.toNat then v else s.stack.read j)

/-- Rule R151: a pop on an empty stack fails: it logs, and `sp` and every slot stay; else it increments `sp`, then reads that
slot, which keeps its value. -/
def Obligations.PopPrimitive : Prop :=
  ∀ s : State,
    (255 ≤ s.sp.toNat → pop s = (none, { s with diag := s.diag ++ [.stackUnderflow] })) ∧
    (s.sp.toNat < 255 →
      ∃ t : State, pop s = (some (s.stack.read (s.sp.toNat + 1)), t) ∧ t = { s with sp := t.sp } ∧
        t.sp.toNat = s.sp.toNat + 1)

/-- Rule R152 (a bad index pushes 0: the spec's decision D4, log entry 11; the order of its diagnostics: D16, log entry 5):
PUSH completes on every operand; it changes the stack, `sp` and DIAG only. -/
def Obligations.PushInstruction : Prop :=
  ∀ (r : Byte) (s : State), s.stack.wf →
    ∃ t : State, exec (.push r) s = .next t ∧ t = { s with stack := t.stack, sp := t.sp, diag := t.diag } ∧
      t.diag = s.diag ++
        ((if 8 ≤ r.toNat then [.badReg] else []) ++ (if s.sp = 0#8 then [.stackOverflow] else [])) ∧
      t.sp.toNat = s.sp.toNat - 1 ∧
      ∀ j : Nat, t.stack.read j = if s.sp ≠ 0#8 ∧ j = s.sp.toNat then s.regValue r else s.stack.read j

/-- Rule R153 (a bad index pops and drops: the spec's decisions D4 and D16, log entries 5 and 11): POP completes on every
operand; it changes the destination register, `sp` and DIAG only; on an empty stack nothing but DIAG changes. -/
def Obligations.PopInstruction : Prop :=
  ∀ (r : Byte) (s : State),
    (255 ≤ s.sp.toNat → exec (.pop r) s = .next { s with diag := s.diag ++ [.stackUnderflow] }) ∧
    (s.sp.toNat < 255 →
      ∃ t : State, exec (.pop r) s = .next t ∧ t = { s with regs := t.regs, sp := t.sp, diag := t.diag } ∧
        t.sp.toNat = s.sp.toNat + 1 ∧
        t.diag = s.diag ++ (if 8 ≤ r.toNat then [.badReg] else []) ∧
        ∀ j : Fin 8, t.regs[j] = if j.val = r.toNat then s.stack.read (s.sp.toNat + 1) else s.regs[j])

/-- Rule R154, and the corner case of R153 (95_test_vectors.md S4): from the empty stack up to 255 pushes in a row succeed,
the first into slot 255, each later one into the slot below, slot 0 never; the 256th fails, its value is discarded and no
register changes; a pop on a freshly reset machine fails. -/
def Obligations.StackHolds255 : Prop :=
  (∀ (r : Byte) (s : State) (n : Nat), r.toNat < 8 → s.sp = 255#8 → s.stack.wf → n ≤ 255 →
    ∃ t : State, execMany (List.replicate n (.push r)) s = .next t ∧ t.sp.toNat = 255 - n ∧ t.regs = s.regs ∧
      t.diag = s.diag ∧
      (∀ j : Nat, t.stack.read j = if 255 - n < j ∧ j ≤ 255 then s.regValue r else s.stack.read j) ∧
      (n = 255 → exec (.push r) t = .next { t with diag := t.diag ++ [.stackOverflow] })) ∧
  (∀ r : Byte, exec (.pop r) State.reset = .next { State.reset with diag := [.stackUnderflow] })

/-- Rule R155: values pushed onto a stack with room for all of them come back in reverse order, and `sp` returns to where it
was; nothing but slots at or below `sp`, which hold no value of the stack, differs afterwards. -/
def Obligations.LastInFirstOut : Prop :=
  ∀ (vs : List Word) (s : State), s.stack.wf → vs.length ≤ s.sp.toNat →
    ∃ t : State,
      popMany vs.length (vs.foldl (fun u v => push v u) s) = (vs.reverse.map some, t) ∧
      t = { s with stack := t.stack } ∧ ∀ j : Nat, s.sp.toNat < j → t.stack.read j = s.stack.read j

/-- Rule R162 (the details are the spec's decision D10, log entry 17): PRINT_STRING appends to OUT the bytes of memory from
`x[0]` up to the first zero byte or address 4095, and changes nothing else. -/
def Obligations.PrintStringOutput : Prop :=
  ∀ s : State,
    exec .syscallPrintString s =
      .next { s with out := s.out ++
        ((List.range' s.regs[0].toNat (Config.capacity - s.regs[0].toNat)).map s.mem.read).takeWhile (· ≠ 0#8) }

/-- Rule R163 (the details are the spec's decisions D6 and D9, log entries 13 and 16): what LOAD_DATA leaves at every
address, the overlapping forward copy with its repetition included, when it logs, and that nothing else changes. -/
def Obligations.LoadDataCopies : Prop :=
  ∀ s : State, s.mem.wf →
    let dst := s.regs[0].toNat
    let src := s.regs[1].toNat
    let n := s.regs[2].toNat
    let k := min n (min (4096 - src) (4096 - dst))
    ∃ t : State, exec .syscallLoadData s = .next t ∧ t = { s with mem := t.mem, diag := t.diag } ∧
      t.diag = s.diag ++ (if k < n then [.copyOor] else []) ∧
      ∀ a : Nat, t.mem.read a =
        if dst ≤ a ∧ a < dst + k then
          s.mem.read (src + (if src < dst then (a - dst) % (dst - src) else a - dst))
        else s.mem.read a

/-- Rule R164: SYSCALL with any other code logs and changes nothing else; from its two bytes a step moves `pc` by 2 and the
run goes on below the end of memory. -/
def Obligations.UnknownServiceIsNoOp : Prop :=
  (∀ (c : Byte) (s : State), c ≠ 0x01#8 → c ≠ 0x02#8 →
    exec (.syscall c) s = .next { s with diag := s.diag ++ [.unknownSyscall] }) ∧
  (∀ (c : Byte) (s : State), c ≠ 0x01#8 → c ≠ 0x02#8 → s.active = true → s.holdsBytes s.pc.toNat [0xFF#8, c] →
    step s =
      .next { s with
        pc := s.pc + 2#32
        running := decide (s.pc.toNat + 2 < 4096)
        diag := s.diag ++ [.unknownSyscall] })

/-! ### Whole-machine rules -/

/-- Rule R21: a register changes only when its index stands in the `reg` or `dst` byte of a LOAD, ADD, SUB, MUL, DIV or
POP. -/
def Obligations.OnlyNamedRegisterChanges : Prop :=
  ∀ (i : Instr) (s t : State) (j : Fin 8), exec i s = .next t → t.regs[j] ≠ s.regs[j] →
    ∃ d : Byte, d.toNat = j.val ∧
      ((∃ v, i = .load d v) ∨ (∃ a b, i = .add d a b) ∨ (∃ a b, i = .sub d a b) ∨ (∃ a b, i = .mul d a b) ∨
        (∃ a b, i = .div d a b) ∨ i = .pop d)

/-- Rules R33, R155 and R34: only PUSH changes a slot, only PUSH and POP change `sp`. -/
def Obligations.OnlyPushPopTouchStack : Prop :=
  ∀ (i : Instr) (s t : State), exec i s = .next t →
    ((∀ r, i ≠ .push r) → t.stack = s.stack) ∧ ((∀ r, i ≠ .push r ∧ i ≠ .pop r) → t.sp = s.sp)

/-- Rules R39, R42, R161 and R165: only STORE and LOAD_DATA change memory, only PRINT_STRING changes OUT, only HALT and an
unknown opcode change `running`, and no instruction reaches the backing image or the host's transactions. -/
def Obligations.OnlyNamedInstructionsReachOutside : Prop :=
  ∀ (i : Instr) (s t : State), exec i s = .next t →
    ((∀ r a, i ≠ .store r a) → i ≠ .syscallLoadData → i ≠ .syscall 0x02#8 → t.mem = s.mem) ∧
    (i ≠ .syscallPrintString → i ≠ .syscall 0x01#8 → t.out = s.out) ∧
    (i ≠ .halt → (∀ op, i ≠ .unknown op) → t.running = s.running) ∧
    t.backing = s.backing ∧ t.pending = s.pending

/-- Rules R101, R112 and R181: no step ever faults, and a step refuses exactly when the engine is stopped and the host's
next transaction is a `loadProgram` with too little data (decision D18, log entry 21). -/
def Obligations.OnlyShortLoadIsRefused : Prop :=
  ∀ s : State,
    (∀ r, step s ≠ .fault r) ∧
    ((∃ r, step s = .refused r) ↔
      s.running = false ∧
      ∃ data size rest, s.pending = .loadProgram data size :: rest ∧ data.length < min size 4096)

/-- Rules R27, R32, R34, R35, R38 and R54: every step keeps the machine's invariant (a backing file of the wrong length
included, whatever image it gives). -/
def Obligations.StepKeepsInvariant : Prop :=
  ∀ s t : State, s.Inv → step s = .next t → t.Inv

/-- Rule R44: the invariant holds right after reset. -/
def Obligations.ResetMeetsInvariant : Prop := State.reset.Inv

/-- 92_eei_decisions.md D4 and D5, 95_test_vectors.md Q9: a step of an instruction whose register indices are all below 8
and whose bytes all lie in memory is the same under both values of BADREG_POLICY and of IMM_FETCH, and is the machine's
step. -/
def Obligations.PoliciesAgreeInRange : Prop :=
  ∀ (s : State) (p q : BadRegPolicy) (f g : ImmFetch), s.active = true →
    s.pc.toNat + (fetchInstr Config.immFetch s).1.length ≤ Config.capacity →
    (∀ r ∈ (fetchInstr Config.immFetch s).1.regOperands, r.toNat < 8) →
    engineStepUnder p f s = engineStepUnder q g s ∧ step s = .next (engineStepUnder p f s)

/-! ### The host (45_host_operations.md, 70_reset_and_hazards.md) -/

/-- Rule R230 with the image of R186 and R232: `reset()` sets every piece of the block's state and leaves OUT, the backing
image and the later transactions; MISMATCH_IMAGE is open (log entry 1), so the last case holds for every image. -/
def Obligations.ResetTransaction : Prop :=
  ∀ (s : State) (rest : List HostOp), s.running = false → s.pending = .reset :: rest →
    ∃ t : State, step s = .next t ∧
      t.pc = 0#32 ∧ t.sp = 255#8 ∧ t.running = false ∧ (∀ j : Fin 8, t.regs[j] = 0#32) ∧
      (∀ j : Nat, j < 256 → t.stack.read j = 0#32) ∧
      (∀ a : Nat, a < 4096 → t.mem.read a =
        match s.backing with
        | none => 0#8
        | some bs => if bs.length = 4096 then bs.getD a 0#8 else Config.mismatchImage bs a) ∧
      t.out = s.out ∧ t.backing = s.backing ∧ t.pending = rest ∧
      t.diag = s.diag ++ (if (s.backing.map List.length) = some 4096 then [] else [.restoreWarn])

/-- Rule R44: the values of the block's state after reset with no backing file (that power-on is the reset state is the
spec's decision D14, that the file is absent the model's choice: log entries 2 and 3). -/
def Obligations.ResetValues : Prop :=
  (∀ j : Fin 8, State.reset.regs[j] = 0#32) ∧ State.reset.pc = 0#32 ∧ State.reset.running = false ∧
  State.reset.sp = 255#8 ∧ (∀ j : Nat, State.reset.stack.read j = 0#32) ∧ (∀ a : Nat, State.reset.mem.read a = 0#8)

/-- Rule R181 (too little data is the spec's decision D18, log entry 21): `loadProgram` sets the first min(size, 4096) bytes
of memory and nothing else, residual bytes and `pc` included. -/
def Obligations.LoadProgramOverwritesFront : Prop :=
  ∀ (s : State) (data : List Byte) (size : Nat) (rest : List HostOp),
    s.running = false → s.pending = .loadProgram data size :: rest → s.mem.wf →
    (min size 4096 ≤ data.length →
      ∃ t : State, step s = .next t ∧ t = { s with mem := t.mem, pending := rest } ∧
        ∀ a : Nat, t.mem.read a = if a < min size 4096 then data.getD a 0#8 else s.mem.read a) ∧
    (data.length < min size 4096 →
      step s = .refused (.shortProgramData data.length (min size 4096)))

/-- Rule R188: `persistState()` makes the backing image the 4096 bytes of memory and changes nothing else. -/
def Obligations.PersistWritesImage : Prop :=
  ∀ (s : State) (rest : List HostOp), s.running = false → s.pending = .persistState :: rest →
    ∃ bs : List Byte, step s = .next { s with backing := some bs, pending := rest } ∧ bs.length = 4096 ∧
      ∀ a : Nat, a < 4096 → bs.getD a 0#8 = s.mem.read a

/-- Rule R189: `printState()` logs the nine values and changes nothing else. -/
def Obligations.PrintStateDumps : Prop :=
  ∀ (s : State) (rest : List HostOp), s.running = false → s.pending = .printState :: rest →
    step s = .next { s with diag := s.diag ++ [.stateDump s.pc s.regs], pending := rest }

/-- Rules R100, R111 and R182 (a run with nothing to fetch is the spec's decision D11, log entry 8): `run()` starts the
engine at the current `pc`, touching nothing else; with `pc` at or beyond 4096 it returns at once. -/
def Obligations.RunStartsAtCurrentPc : Prop :=
  ∀ (s : State) (rest : List HostOp), s.running = false → s.pending = .run :: rest →
    step s = .next { s with running := decide (s.pc.toNat < 4096), pending := rest }

/-- Rule R180 (the waiting list is the model's own, log entries 6 and 7): while a run is in progress no host transaction is
taken, and a stopped machine with none pending stays as it is. -/
def Obligations.HostMovesOnlyWhenStopped : Prop :=
  (∀ s t : State, s.running = true → step s = .next t → t.pending = s.pending ∧ t.backing = s.backing) ∧
  (∀ s : State, s.running = false → s.pending = [] → step s = .next s)

/-- Rules R186, R188 and R238, the source's round trip, on the premise that the persist succeeded, as the spec's decision
D25 has it (`persistState()` cannot fail; log entry 22, unsafe here): `persistState()` then `reset()` brings the same memory
back with the rest of the block at its reset values, and no warning. -/
def Obligations.PersistThenResetKeepsMemory : Prop :=
  ∀ (s : State) (rest : List HostOp),
    s.running = false → s.mem.wf → s.pending = .persistState :: .reset :: rest →
    ∃ t : State, Sys2Proof.core.run 2 s = .next t ∧ t.mem = s.mem ∧ t.diag = s.diag ∧ t.out = s.out ∧
      t.pc = 0#32 ∧ t.sp = 255#8 ∧ t.running = false ∧ t.regs = State.reset.regs ∧ t.stack = State.reset.stack ∧
      t.pending = rest

/-- Rule R215 with the image of R186 and R232 (the reset state after power is the spec's decision D14, the zeros with no file
its D13, log entries 3 and 23): a power cycle, whenever it comes, leaves the backing image and the reset state of the block,
with memory from that image alone: zero with no file, the file's bytes, or the open image (log entry 1), which holds for
every image. -/
def Obligations.PowerCycleKeepsBackingOnly : Prop :=
  ∀ s : State, (powerCycle s).backing = s.backing ∧ (powerCycle s).regs = State.reset.regs ∧
    (powerCycle s).pc = 0#32 ∧ (powerCycle s).running = false ∧ (powerCycle s).sp = 255#8 ∧
    (powerCycle s).stack = [] ∧
    (∀ a : Nat, a < 4096 → (powerCycle s).mem.read a =
      match s.backing with
      | none => 0#8
      | some bs => if bs.length = 4096 then bs.getD a 0#8 else Config.mismatchImage bs a)
end

