-- ==== Sys2Proof/Laws/Cells.lean ====
section
/-! SUPPORT. The laws of the sparse storage behind the Memory Store and the Operand Stack: read after write, the canonical
form is kept, equal contents are equal data. -/

namespace Sys2Proof.Machine

variable {w : Nat}

@[simp] theorem cellRead_nil (a : Nat) : cellRead ([] : List (Nat × BitVec w)) a = 0#w := rfl

theorem cellsWf_nil (bound : Nat) : cellsWf bound ([] : List (Nat × BitVec w)) :=
  ⟨List.Pairwise.nil, by simp⟩

theorem cellsWf_tail {bound : Nat} {c : Nat × BitVec w} {m : List (Nat × BitVec w)} (h : cellsWf bound (c :: m)) :
    cellsWf bound m :=
  ⟨(List.pairwise_cons.mp h.1).2, fun d hd => h.2 d (List.mem_cons_of_mem _ hd)⟩

/-- Below all its keys a list reads as 0. -/
theorem cellRead_below {m : List (Nat × BitVec w)} {a : Nat} (h : ∀ c ∈ m, a < c.1) : cellRead m a = 0#w := by
  induction m with
  | nil => rfl
  | cons c m ih =>
    have hc := h c (List.mem_cons_self ..)
    simp only [cellRead]
    rw [if_neg (by omega)]
    exact ih fun d hd => h d (List.mem_cons_of_mem _ hd)

/-- Outside the bound a canonical list reads as 0. -/
theorem cellRead_outside {bound a : Nat} {m : List (Nat × BitVec w)} (h : cellsWf bound m) (ha : bound ≤ a) :
    cellRead m a = 0#w := by
  induction m with
  | nil => rfl
  | cons c m ih =>
    have hc := (h.2 c (List.mem_cons_self ..)).1
    simp only [cellRead]
    rw [if_neg (by omega)]
    exact ih (cellsWf_tail h)

/-- Read after write. -/
theorem cellRead_cellWrite {bound : Nat} {m : List (Nat × BitVec w)} (h : cellsWf bound m) (a : Nat) (b : BitVec w)
    (k : Nat) : cellRead (cellWrite m a b) k = if k = a then b else cellRead m k := by
  induction m with
  | nil =>
    simp only [cellWrite]
    by_cases hb : b = 0#w
    · simp [hb]
    · by_cases hk : k = a
      · simp [hb, hk, cellRead]
      · simp [hb, hk, cellRead, Ne.symm hk]
  | cons c m ih =>
    obtain ⟨key, v⟩ := c
    have tail := ih (cellsWf_tail h)
    have above : ∀ d ∈ m, key < d.1 := (List.pairwise_cons.mp h.1).1
    simp only [cellWrite]
    split
    · have low : cellRead ((key, v) :: m) a = 0#w := by
        apply cellRead_below
        intro d hd
        rcases List.mem_cons.mp hd with rfl | hd
        · assumption
        · have := above d hd
          omega
      split
      · by_cases hk : k = a <;> simp_all
      · simp only [cellRead]
        by_cases hk : k = a
        · simp [hk]
        · rw [if_neg (by omega), if_neg hk]
    · split
      · have low : cellRead m a = 0#w := cellRead_below (by intro d hd; have := above d hd; omega)
        split
        · by_cases hk : k = a
          · simp_all
          · rw [if_neg hk]
            simp only [cellRead]
            rw [if_neg (by omega)]
        · simp only [cellRead]
          by_cases hk : k = a
          · simp [hk]
          · rw [if_neg (by omega), if_neg hk, if_neg (by omega)]
      · simp only [cellRead, tail]
        by_cases hk : k = a
        · rw [if_neg (by omega)]
          simp [hk]
        · simp [hk]

theorem mem_cellWrite {m : List (Nat × BitVec w)} {a : Nat} {b : BitVec w} {c : Nat × BitVec w}
    (h : c ∈ cellWrite m a b) : c ∈ m ∨ (c = (a, b) ∧ b ≠ 0#w) := by
  induction m with
  | nil =>
    simp only [cellWrite] at h
    split at h <;> simp_all
  | cons d m ih =>
    obtain ⟨key, v⟩ := d
    simp only [cellWrite] at h
    split at h
    · split at h
      · exact .inl h
      · rcases List.mem_cons.mp h with rfl | h
        · exact .inr ⟨rfl, by assumption⟩
        · exact .inl h
    · split at h
      · split at h
        · exact .inl (List.mem_cons_of_mem _ h)
        · rcases List.mem_cons.mp h with rfl | h
          · exact .inr ⟨rfl, by assumption⟩
          · exact .inl (List.mem_cons_of_mem _ h)
      · rcases List.mem_cons.mp h with rfl | h
        · exact .inl (List.mem_cons_self ..)
        · exact (ih h).imp_left (List.mem_cons_of_mem _)

/-- A write below the bound keeps the canonical form. -/
theorem cellWrite_wf {bound : Nat} {m : List (Nat × BitVec w)} (h : cellsWf bound m) {a : Nat} (ha : a < bound)
    (b : BitVec w) : cellsWf bound (cellWrite m a b) := by
  refine ⟨?_, fun c hc => ?_⟩
  · induction m with
    | nil =>
      simp only [cellWrite]
      split <;> simp
    | cons d m ih =>
      obtain ⟨key, v⟩ := d
      have above : ∀ d ∈ m, key < d.1 := (List.pairwise_cons.mp h.1).1
      have rest := (List.pairwise_cons.mp h.1).2
      simp only [cellWrite]
      split
      · split
        · exact h.1
        · refine List.pairwise_cons.mpr ⟨fun e he => ?_, h.1⟩
          rcases List.mem_cons.mp he with rfl | he
          · assumption
          · have := above e he
            show a < e.1
            omega
      · split
        · split
          · exact rest
          · refine List.pairwise_cons.mpr ⟨fun e he => ?_, rest⟩
            have := above e he
            show a < e.1
            omega
        · refine List.pairwise_cons.mpr ⟨fun e he => ?_, ih (cellsWf_tail h)⟩
          rcases mem_cellWrite he with he | ⟨rfl, -⟩
          · exact above e he
          · show key < a
            omega
  · rcases mem_cellWrite hc with hc | ⟨rfl, hb⟩
    · exact h.2 c hc
    · exact ⟨ha, hb⟩

/-- Canonical lists with the same contents are equal. -/
theorem cells_ext {bound : Nat} {m n : List (Nat × BitVec w)} (hm : cellsWf bound m) (hn : cellsWf bound n)
    (h : ∀ a, cellRead m a = cellRead n a) : m = n := by
  induction m generalizing n with
  | nil =>
    cases n with
    | nil => rfl
    | cons d n =>
      have := h d.1
      have hd := (hn.2 d (List.mem_cons_self ..)).2
      simp [cellRead] at this
      exact absurd this.symm hd
  | cons c m ih =>
    have hc := (hm.2 c (List.mem_cons_self ..)).2
    have aboveM : ∀ e ∈ m, c.1 < e.1 := (List.pairwise_cons.mp hm.1).1
    cases n with
    | nil =>
      have := h c.1
      simp [cellRead] at this
      exact absurd this hc
    | cons d n =>
      have hd := (hn.2 d (List.mem_cons_self ..)).2
      have aboveN : ∀ e ∈ n, d.1 < e.1 := (List.pairwise_cons.mp hn.1).1
      have key : c.1 = d.1 := by
        rcases Nat.lt_trichotomy c.1 d.1 with hlt | heq | hgt
        · have read := h c.1
          rw [cellRead_below (m := d :: n) (a := c.1)] at read
          · simp [cellRead] at read
            exact absurd read hc
          · intro e he
            rcases List.mem_cons.mp he with rfl | he
            · exact hlt
            · have := aboveN e he
              omega
        · exact heq
        · have read := h d.1
          rw [cellRead_below (m := c :: m) (a := d.1)] at read
          · simp [cellRead] at read
            exact absurd read.symm hd
          · intro e he
            rcases List.mem_cons.mp he with rfl | he
            · exact hgt
            · have := aboveM e he
              omega
      have val : c.2 = d.2 := by
        have read := h c.1
        simp only [cellRead, if_true, if_pos key.symm] at read
        exact read
      have cd : c = d := Prod.ext key val
      subst cd
      have rest : m = n := by
        apply ih (cellsWf_tail hm) (cellsWf_tail hn)
        intro a
        by_cases hac : c.1 = a
        · subst hac
          rw [cellRead_below aboveM, cellRead_below aboveN]
        · have read := h a
          simp only [cellRead, if_neg hac] at read
          exact read
      rw [rest]

/-! ### The Memory Store -/

theorem Memory.read_nil (a : Nat) : Memory.read [] a = 0#8 := rfl

theorem Memory.read_outside {m : Memory} (h : m.wf) {a : Nat} (ha : Config.capacity ≤ a) : m.read a = 0#8 :=
  cellRead_outside h ha

theorem Memory.read_write {m : Memory} (h : m.wf) (a : Nat) (b : Byte) (k : Nat) :
    (m.write a b).read k = if k = a then b else m.read k :=
  cellRead_cellWrite h a b k

theorem Memory.write_wf {m : Memory} (h : m.wf) {a : Nat} (ha : a < Config.capacity) (b : Byte) : (m.write a b).wf :=
  cellWrite_wf h ha b

theorem Memory.ext_of_read {m n : Memory} (hm : m.wf) (hn : n.wf) (h : ∀ a, m.read a = n.read a) : m = n :=
  cells_ext hm hn h

/-- `Memory.writeBytes` keeps the canonical form while it stays below `CAPACITY`. -/
theorem Memory.writeBytes_wf {m : Memory} (h : m.wf) (bs : List Byte) {a : Nat}
    (ha : a + bs.length ≤ Config.capacity) : (m.writeBytes a bs).wf := by
  induction bs generalizing m a with
  | nil => exact h
  | cons b bs ih =>
    simp only [List.length_cons] at ha
    exact ih (Memory.write_wf h (by omega) b) (by omega)

/-- What `Memory.writeBytes` leaves at every address. -/
theorem Memory.read_writeBytes {m : Memory} (h : m.wf) (bs : List Byte) {a : Nat}
    (ha : a + bs.length ≤ Config.capacity) (k : Nat) :
    (m.writeBytes a bs).read k = if a ≤ k ∧ k < a + bs.length then bs.getD (k - a) 0#8 else m.read k := by
  induction bs generalizing m a with
  | nil =>
    rw [if_neg (by simp only [List.length_nil]; omega)]
    rfl
  | cons b bs ih =>
    simp only [List.length_cons] at ha ⊢
    show (Memory.writeBytes (m.write a b) (a + 1) bs).read k = _
    rw [ih (Memory.write_wf h (by omega) b) (by omega), Memory.read_write h]
    by_cases hk : k = a
    · subst hk
      rw [if_neg (by omega), if_pos rfl, if_pos (by omega)]
      simp
    · rw [if_neg hk]
      by_cases hin : a + 1 ≤ k ∧ k < a + 1 + bs.length
      · rw [if_pos hin, if_pos (by omega), show k - a = (k - (a + 1)) + 1 by omega]
        simp
      · rw [if_neg hin, if_neg (by omega)]

theorem Memory.ofImage_wf (f : Nat → Byte) : (Memory.ofImage f).wf := by
  have mem_iff : ∀ c : Nat × Byte, c ∈ Memory.ofImage f → c.1 < Config.capacity ∧ c.2 = f c.1 ∧ f c.1 ≠ 0#8 := by
    intro c hc
    simp only [Memory.ofImage, List.mem_filterMap, List.mem_range] at hc
    obtain ⟨a, ha, hc⟩ := hc
    split at hc
    · cases hc
    · obtain rfl := Option.some.inj hc
      exact ⟨ha, rfl, by assumption⟩
  refine ⟨?_, fun c hc => ⟨(mem_iff c hc).1, by rw [(mem_iff c hc).2.1]; exact (mem_iff c hc).2.2⟩⟩
  simp only [Memory.ofImage, List.pairwise_filterMap]
  refine List.pairwise_lt_range.imp ?_
  intro a b hab c hc d hd
  split at hc
  · cases hc
  · split at hd
    · cases hd
    · obtain rfl := Option.some.inj hc
      obtain rfl := Option.some.inj hd
      exact hab

theorem cellRead_filterMap (f : Nat → Byte) (l : List Nat) (a : Nat) :
    cellRead (l.filterMap fun k => if f k = 0#8 then none else some (k, f k)) a = if a ∈ l then f a else 0#8 := by
  induction l with
  | nil => simp
  | cons k l ih =>
    rw [List.filterMap_cons]
    by_cases hk : f k = 0#8
    · simp only [hk, if_true, ih, List.mem_cons]
      by_cases hka : a = k
      · subst hka
        simp [hk]
      · simp [hka]
    · simp only [hk, if_false, cellRead, ih, List.mem_cons]
      by_cases hka : k = a
      · simp [hka]
      · simp [hka, Ne.symm hka]

theorem Memory.read_ofImage (f : Nat → Byte) (a : Nat) :
    (Memory.ofImage f).read a = if a < Config.capacity then f a else 0#8 := by
  rw [Memory.read, Memory.ofImage, cellRead_filterMap]
  simp only [List.mem_range]

@[simp] theorem Memory.length_toBytes (m : Memory) : m.toBytes.length = Config.capacity := by
  simp [Memory.toBytes]

theorem Memory.getD_toBytes (m : Memory) {a : Nat} (ha : a < Config.capacity) : m.toBytes.getD a 0#8 = m.read a := by
  simp [Memory.toBytes, List.getD, ha]

/-! ### The Operand Stack -/

theorem Slots.read_write {m : Slots} (h : m.wf) (j : Nat) (v : Word) (k : Nat) :
    (m.write j v).read k = if k = j then v else m.read k :=
  cellRead_cellWrite h j v k

theorem Slots.write_wf {m : Slots} (h : m.wf) {j : Nat} (hj : j < Config.stackSlots) (v : Word) : (m.write j v).wf :=
  cellWrite_wf h hj v

end Sys2Proof.Machine
end

