-- ==== Sys2Proof/Laws/Config.lean ====
section
/-! SUPPORT. How the configuration record (00_scope.md rule R7) stands to the types of the state and to itself. -/

namespace Sys2Proof.Machine

/-- `SP_EMPTY` and `STACK_DEPTH_MAX` are `STACK_SLOTS - 1` (rule R7). -/
theorem stack_parameters :
    Config.spEmpty = Config.stackSlots - 1 ∧ Config.stackDepthMax = Config.stackSlots - 1 := ⟨rfl, rfl⟩

/-- A register, a stack slot and an immediate are `XLEN` bits wide. -/
theorem word_width : Word = BitVec Config.xlen := rfl

/-- There are `NREGS` registers of `XLEN` bits. -/
theorem regs_type (s : State) : s.regs.toArray.size = Config.numRegs ∧ ∀ i : Fin Config.numRegs,
    s.regs[i].toNat < 2 ^ Config.xlen := ⟨s.regs.size_toArray, fun i => s.regs[i].isLt⟩

/-- `pc` is `PC_BITS` wide. -/
theorem pc_width (s : State) : s.pc.toNat < 2 ^ Config.pcBits := s.pc.isLt

/-- `sp` is `SP_BITS` wide. -/
theorem sp_width (s : State) : s.sp.toNat < 2 ^ Config.spBits := s.sp.isLt

/-- The stack never holds more than `STACK_DEPTH_MAX` values. -/
theorem depth_le (s : State) : s.depth ≤ Config.stackDepthMax := by
  have : Config.spEmpty = Config.stackDepthMax := rfl
  unfold State.depth
  omega

end Sys2Proof.Machine
end

