-- ==== Sys2Proof/Laws/Decode.lean ====
section
/-! SUPPORT. The small lemmas of the decoder and of the big-endian assembly of a word. -/

namespace Sys2Proof

/-- A word is assembled from its own four bytes. -/
theorem be32_beByte (v : Word) : be32 (beByte v 0) (beByte v 1) (beByte v 2) (beByte v 3) = v := by
  apply BitVec.eq_of_toNat_eq
  simp only [be32, beByte, BitVec.toNat_ofNat, BitVec.extractLsb'_toNat, Nat.shiftRight_eq_div_pow]
  have := v.isLt
  omega

/-- An assembled word as a natural number (rule R9). -/
theorem be32_toNat (a b c d : Byte) :
    (be32 a b c d).toNat = a.toNat * 0x1000000 + b.toNat * 0x10000 + c.toNat * 0x100 + d.toNat := by
  have fits : ∀ a b c d : Nat, a < 256 → b < 256 → c < 256 → d < 256 →
      a * 0x1000000 + b * 0x10000 + c * 0x100 + d < 0x100000000 := by
    intros
    omega
  rw [be32, BitVec.toNat_ofNat, Nat.mod_eq_of_lt (fits _ _ _ _ a.isLt b.isLt c.isLt d.isLt)]

/-- Extracting a byte of an assembled word, as arithmetic on its natural number. -/
theorem extract_be32_toNat (a b c d : Byte) (k : Nat) :
    ((be32 a b c d).extractLsb' k 8).toNat =
      (a.toNat * 0x1000000 + b.toNat * 0x10000 + c.toNat * 0x100 + d.toNat) / 2 ^ k % 2 ^ 8 := by
  rw [BitVec.extractLsb'_toNat, Nat.shiftRight_eq_div_pow, be32_toNat]

/-- The bytes of an assembled word are those it was assembled from. -/
theorem beByte_be32 (a b c d : Byte) :
    beByte (be32 a b c d) 0 = a ∧ beByte (be32 a b c d) 1 = b ∧ beByte (be32 a b c d) 2 = c ∧
      beByte (be32 a b c d) 3 = d := by
  have ha : a.toNat < 256 := a.isLt
  have hb : b.toNat < 256 := b.isLt
  have hc : c.toNat < 256 := c.isLt
  have hd : d.toNat < 256 := d.isLt
  refine ⟨?_, ?_, ?_, ?_⟩
  · apply BitVec.eq_of_toNat_eq
    rw [show beByte (be32 a b c d) 0 = (be32 a b c d).extractLsb' 24 8 from rfl, extract_be32_toNat]
    generalize a.toNat = a' at *
    generalize b.toNat = b' at *
    generalize c.toNat = c' at *
    generalize d.toNat = d' at *
    omega
  · apply BitVec.eq_of_toNat_eq
    rw [show beByte (be32 a b c d) 1 = (be32 a b c d).extractLsb' 16 8 from rfl, extract_be32_toNat]
    generalize a.toNat = a' at *
    generalize b.toNat = b' at *
    generalize c.toNat = c' at *
    generalize d.toNat = d' at *
    omega
  · apply BitVec.eq_of_toNat_eq
    rw [show beByte (be32 a b c d) 2 = (be32 a b c d).extractLsb' 8 8 from rfl, extract_be32_toNat]
    generalize a.toNat = a' at *
    generalize b.toNat = b' at *
    generalize c.toNat = c' at *
    generalize d.toNat = d' at *
    omega
  · apply BitVec.eq_of_toNat_eq
    rw [show beByte (be32 a b c d) 3 = (be32 a b c d).extractLsb' 0 8 from rfl, extract_be32_toNat]
    generalize a.toNat = a' at *
    generalize b.toNat = b' at *
    generalize c.toNat = c' at *
    generalize d.toNat = d' at *
    omega

/-- A byte outside the opcode map takes only itself and decodes to UNKNOWN (rule R86). -/
theorem undefined_opcode {op : Byte} (h : op ∉ definedOpcodes) :
    formatOf op = .op ∧ Machine.specLength op = 1 ∧ ∀ b1 b2 b3 imm, decodeFields op b1 b2 b3 imm = .unknown op := by
  simp only [definedOpcodes, List.mem_cons, List.not_mem_nil, or_false, not_or] at h
  refine ⟨?_, ?_, fun b1 b2 b3 imm => ?_⟩
  · unfold formatOf
    split <;> simp_all
  · simp [Machine.specLength, h]
  · unfold decodeFields
    split <;> simp_all

@[simp] theorem decodeService_length (code : Byte) : (decodeService code).length = 2 := by
  unfold decodeService
  split <;> rfl

/-- A decoded instruction has the length of its opcode (rule R82). -/
theorem decodeFields_length (op b1 b2 b3 : Byte) (imm : Word) :
    (decodeFields op b1 b2 b3 imm).length = Machine.specLength op := by
  by_cases h : op ∈ definedOpcodes
  · simp only [definedOpcodes, List.mem_cons, List.not_mem_nil, or_false] at h
    rcases h with rfl | rfl | rfl | rfl | rfl | rfl | rfl | rfl | rfl | rfl
    · rfl
    · rfl
    · rfl
    · rfl
    · rfl
    · rfl
    · rfl
    · rfl
    · rfl
    · exact decodeService_length b1
  · obtain ⟨-, hl, hd⟩ := undefined_opcode h
    rw [hl, hd]
    rfl

/-- A decoded SYSCALL is one of the three SYSCALL rows. -/
theorem decodeService_cases (code : Byte) :
    (code = 0x01#8 ∧ decodeService code = .syscallPrintString) ∨
      (code = 0x02#8 ∧ decodeService code = .syscallLoadData) ∨
      (code ≠ 0x01#8 ∧ code ≠ 0x02#8 ∧ decodeService code = .syscall code) := by
  unfold decodeService
  split <;> simp_all

end Sys2Proof
end

