-- ==== Sys2Proof/Laws/State.lean ====
section
/-! SUPPORT. Every named update of the state against every field: what it sets and what it leaves. All by rfl, so that no
later proof unfolds a record update. -/

namespace Sys2Proof.Machine

/-! ### `State.setPc` -/

@[simp] theorem State.setPc_regs (s : State) (t : Word) : (s.setPc t).regs = s.regs := rfl
@[simp] theorem State.setPc_pc (s : State) (t : Word) : (s.setPc t).pc = t := rfl
@[simp] theorem State.setPc_running (s : State) (t : Word) : (s.setPc t).running = s.running := rfl
@[simp] theorem State.setPc_sp (s : State) (t : Word) : (s.setPc t).sp = s.sp := rfl
@[simp] theorem State.setPc_stack (s : State) (t : Word) : (s.setPc t).stack = s.stack := rfl
@[simp] theorem State.setPc_mem (s : State) (t : Word) : (s.setPc t).mem = s.mem := rfl
@[simp] theorem State.setPc_out (s : State) (t : Word) : (s.setPc t).out = s.out := rfl
@[simp] theorem State.setPc_diag (s : State) (t : Word) : (s.setPc t).diag = s.diag := rfl
@[simp] theorem State.setPc_backing (s : State) (t : Word) : (s.setPc t).backing = s.backing := rfl
@[simp] theorem State.setPc_pending (s : State) (t : Word) : (s.setPc t).pending = s.pending := rfl

/-! ### `State.setRunning` -/

@[simp] theorem State.setRunning_regs (s : State) (b : Bool) : (s.setRunning b).regs = s.regs := rfl
@[simp] theorem State.setRunning_pc (s : State) (b : Bool) : (s.setRunning b).pc = s.pc := rfl
@[simp] theorem State.setRunning_running (s : State) (b : Bool) : (s.setRunning b).running = b := rfl
@[simp] theorem State.setRunning_sp (s : State) (b : Bool) : (s.setRunning b).sp = s.sp := rfl
@[simp] theorem State.setRunning_stack (s : State) (b : Bool) : (s.setRunning b).stack = s.stack := rfl
@[simp] theorem State.setRunning_mem (s : State) (b : Bool) : (s.setRunning b).mem = s.mem := rfl
@[simp] theorem State.setRunning_out (s : State) (b : Bool) : (s.setRunning b).out = s.out := rfl
@[simp] theorem State.setRunning_diag (s : State) (b : Bool) : (s.setRunning b).diag = s.diag := rfl
@[simp] theorem State.setRunning_backing (s : State) (b : Bool) : (s.setRunning b).backing = s.backing := rfl
@[simp] theorem State.setRunning_pending (s : State) (b : Bool) : (s.setRunning b).pending = s.pending := rfl

/-! ### `State.setSp` -/

@[simp] theorem State.setSp_regs (s : State) (v : Byte) : (s.setSp v).regs = s.regs := rfl
@[simp] theorem State.setSp_pc (s : State) (v : Byte) : (s.setSp v).pc = s.pc := rfl
@[simp] theorem State.setSp_running (s : State) (v : Byte) : (s.setSp v).running = s.running := rfl
@[simp] theorem State.setSp_sp (s : State) (v : Byte) : (s.setSp v).sp = v := rfl
@[simp] theorem State.setSp_stack (s : State) (v : Byte) : (s.setSp v).stack = s.stack := rfl
@[simp] theorem State.setSp_mem (s : State) (v : Byte) : (s.setSp v).mem = s.mem := rfl
@[simp] theorem State.setSp_out (s : State) (v : Byte) : (s.setSp v).out = s.out := rfl
@[simp] theorem State.setSp_diag (s : State) (v : Byte) : (s.setSp v).diag = s.diag := rfl
@[simp] theorem State.setSp_backing (s : State) (v : Byte) : (s.setSp v).backing = s.backing := rfl
@[simp] theorem State.setSp_pending (s : State) (v : Byte) : (s.setSp v).pending = s.pending := rfl

/-! ### `State.setReg` -/

@[simp] theorem State.setReg_regs (s : State) (i : Fin Config.numRegs) (v : Word) : (s.setReg i v).regs = s.regs.set i v := rfl
@[simp] theorem State.setReg_pc (s : State) (i : Fin Config.numRegs) (v : Word) : (s.setReg i v).pc = s.pc := rfl
@[simp] theorem State.setReg_running (s : State) (i : Fin Config.numRegs) (v : Word) : (s.setReg i v).running = s.running := rfl
@[simp] theorem State.setReg_sp (s : State) (i : Fin Config.numRegs) (v : Word) : (s.setReg i v).sp = s.sp := rfl
@[simp] theorem State.setReg_stack (s : State) (i : Fin Config.numRegs) (v : Word) : (s.setReg i v).stack = s.stack := rfl
@[simp] theorem State.setReg_mem (s : State) (i : Fin Config.numRegs) (v : Word) : (s.setReg i v).mem = s.mem := rfl
@[simp] theorem State.setReg_out (s : State) (i : Fin Config.numRegs) (v : Word) : (s.setReg i v).out = s.out := rfl
@[simp] theorem State.setReg_diag (s : State) (i : Fin Config.numRegs) (v : Word) : (s.setReg i v).diag = s.diag := rfl
@[simp] theorem State.setReg_backing (s : State) (i : Fin Config.numRegs) (v : Word) : (s.setReg i v).backing = s.backing := rfl
@[simp] theorem State.setReg_pending (s : State) (i : Fin Config.numRegs) (v : Word) : (s.setReg i v).pending = s.pending := rfl

/-! ### `State.setSlot` -/

@[simp] theorem State.setSlot_regs (s : State) (j : Nat) (v : Word) : (s.setSlot j v).regs = s.regs := rfl
@[simp] theorem State.setSlot_pc (s : State) (j : Nat) (v : Word) : (s.setSlot j v).pc = s.pc := rfl
@[simp] theorem State.setSlot_running (s : State) (j : Nat) (v : Word) : (s.setSlot j v).running = s.running := rfl
@[simp] theorem State.setSlot_sp (s : State) (j : Nat) (v : Word) : (s.setSlot j v).sp = s.sp := rfl
@[simp] theorem State.setSlot_stack (s : State) (j : Nat) (v : Word) : (s.setSlot j v).stack = s.stack.write j v := rfl
@[simp] theorem State.setSlot_mem (s : State) (j : Nat) (v : Word) : (s.setSlot j v).mem = s.mem := rfl
@[simp] theorem State.setSlot_out (s : State) (j : Nat) (v : Word) : (s.setSlot j v).out = s.out := rfl
@[simp] theorem State.setSlot_diag (s : State) (j : Nat) (v : Word) : (s.setSlot j v).diag = s.diag := rfl
@[simp] theorem State.setSlot_backing (s : State) (j : Nat) (v : Word) : (s.setSlot j v).backing = s.backing := rfl
@[simp] theorem State.setSlot_pending (s : State) (j : Nat) (v : Word) : (s.setSlot j v).pending = s.pending := rfl

/-! ### `State.setByte` -/

@[simp] theorem State.setByte_regs (s : State) (a : Nat) (b : Byte) : (s.setByte a b).regs = s.regs := rfl
@[simp] theorem State.setByte_pc (s : State) (a : Nat) (b : Byte) : (s.setByte a b).pc = s.pc := rfl
@[simp] theorem State.setByte_running (s : State) (a : Nat) (b : Byte) : (s.setByte a b).running = s.running := rfl
@[simp] theorem State.setByte_sp (s : State) (a : Nat) (b : Byte) : (s.setByte a b).sp = s.sp := rfl
@[simp] theorem State.setByte_stack (s : State) (a : Nat) (b : Byte) : (s.setByte a b).stack = s.stack := rfl
@[simp] theorem State.setByte_mem (s : State) (a : Nat) (b : Byte) : (s.setByte a b).mem = s.mem.write a b := rfl
@[simp] theorem State.setByte_out (s : State) (a : Nat) (b : Byte) : (s.setByte a b).out = s.out := rfl
@[simp] theorem State.setByte_diag (s : State) (a : Nat) (b : Byte) : (s.setByte a b).diag = s.diag := rfl
@[simp] theorem State.setByte_backing (s : State) (a : Nat) (b : Byte) : (s.setByte a b).backing = s.backing := rfl
@[simp] theorem State.setByte_pending (s : State) (a : Nat) (b : Byte) : (s.setByte a b).pending = s.pending := rfl

/-! ### `State.logDiag` -/

@[simp] theorem State.logDiag_regs (s : State) (k : Diag) : (s.logDiag k).regs = s.regs := rfl
@[simp] theorem State.logDiag_pc (s : State) (k : Diag) : (s.logDiag k).pc = s.pc := rfl
@[simp] theorem State.logDiag_running (s : State) (k : Diag) : (s.logDiag k).running = s.running := rfl
@[simp] theorem State.logDiag_sp (s : State) (k : Diag) : (s.logDiag k).sp = s.sp := rfl
@[simp] theorem State.logDiag_stack (s : State) (k : Diag) : (s.logDiag k).stack = s.stack := rfl
@[simp] theorem State.logDiag_mem (s : State) (k : Diag) : (s.logDiag k).mem = s.mem := rfl
@[simp] theorem State.logDiag_out (s : State) (k : Diag) : (s.logDiag k).out = s.out := rfl
@[simp] theorem State.logDiag_diag (s : State) (k : Diag) : (s.logDiag k).diag = s.diag ++ [k] := rfl
@[simp] theorem State.logDiag_backing (s : State) (k : Diag) : (s.logDiag k).backing = s.backing := rfl
@[simp] theorem State.logDiag_pending (s : State) (k : Diag) : (s.logDiag k).pending = s.pending := rfl

/-! ### `State.emit` -/

@[simp] theorem State.emit_regs (s : State) (b : Byte) : (s.emit b).regs = s.regs := rfl
@[simp] theorem State.emit_pc (s : State) (b : Byte) : (s.emit b).pc = s.pc := rfl
@[simp] theorem State.emit_running (s : State) (b : Byte) : (s.emit b).running = s.running := rfl
@[simp] theorem State.emit_sp (s : State) (b : Byte) : (s.emit b).sp = s.sp := rfl
@[simp] theorem State.emit_stack (s : State) (b : Byte) : (s.emit b).stack = s.stack := rfl
@[simp] theorem State.emit_mem (s : State) (b : Byte) : (s.emit b).mem = s.mem := rfl
@[simp] theorem State.emit_out (s : State) (b : Byte) : (s.emit b).out = s.out ++ [b] := rfl
@[simp] theorem State.emit_diag (s : State) (b : Byte) : (s.emit b).diag = s.diag := rfl
@[simp] theorem State.emit_backing (s : State) (b : Byte) : (s.emit b).backing = s.backing := rfl
@[simp] theorem State.emit_pending (s : State) (b : Byte) : (s.emit b).pending = s.pending := rfl

end Sys2Proof.Machine
end

