-- ==== Sys2Proof/Laws/Ops.lean ====
section
/-! SUPPORT. One lemma per shared operation that says everything it does: the value it answers and the whole state after
it. Proofs cite these instead of unfolding the operation. -/

namespace Sys2Proof.Machine

theorem capacity_eq : Config.capacity = 4096 := rfl

theorem stackSlots_eq : Config.stackSlots = 256 := rfl

theorem spEmpty_eq : Config.spEmpty = 255 := rfl

theorem active_iff (s : State) : s.active = true ↔ s.running = true ∧ s.pc.toNat < Config.capacity := by
  simp [State.active]

/-! ### Memory access -/

theorem memRead8_eq (a : Nat) (s : State) :
    memRead8 a s = (if a < Config.capacity then s.mem.read a else 0#8,
      { s with diag := s.diag ++ if a < Config.capacity then [] else [.memReadOor] }) := by
  unfold memRead8
  split <;> simp [State.logDiag]

theorem memWrite8_eq (a : Nat) (b : Byte) (s : State) :
    memWrite8 a b s = { s with
      mem := if a < Config.capacity then s.mem.write a b else s.mem
      diag := s.diag ++ if a < Config.capacity then [] else [.memWriteOor] } := by
  unfold memWrite8
  split <;> simp [State.logDiag, State.setByte]

theorem memRead32_eq (a : Nat) (s : State) :
    memRead32 a s =
      (if a + 3 < Config.capacity then
        be32 (s.mem.read a) (s.mem.read (a + 1)) (s.mem.read (a + 2)) (s.mem.read (a + 3)) else 0#32,
      { s with diag := s.diag ++ if a + 3 < Config.capacity then [] else [.memReadOor] }) := by
  unfold memRead32
  split <;> simp [State.logDiag]

/-- The memory after a word write is that of writing the word's four bytes. -/
theorem memWrite32_eq (a : Nat) (v : Word) (s : State) :
    memWrite32 a v s = { s with
      mem := if a + 3 < Config.capacity then s.mem.writeBytes a (beBytes v) else s.mem
      diag := s.diag ++ if a + 3 < Config.capacity then [] else [.memWriteOor] } := by
  unfold memWrite32
  split <;> simp [State.logDiag, State.setByte, beBytes, Memory.writeBytes, Nat.add_assoc]

theorem fetch8_eq (s : State) :
    fetch8 s = (if s.pc.toNat < Config.capacity then s.mem.read s.pc.toNat else 0#8,
      { s with
        pc := s.pc + 1#32
        diag := s.diag ++ if s.pc.toNat < Config.capacity then [] else [.memReadOor] }) := by
  simp [fetch8, memRead8_eq, State.setPc]

theorem fetch32_word_eq (s : State) :
    fetch32 .word s =
      (if s.pc.toNat + 3 < Config.capacity then
        be32 (s.mem.read s.pc.toNat) (s.mem.read (s.pc.toNat + 1)) (s.mem.read (s.pc.toNat + 2))
          (s.mem.read (s.pc.toNat + 3)) else 0#32,
      { s with
        pc := s.pc + 4#32
        diag := s.diag ++ if s.pc.toNat + 3 < Config.capacity then [] else [.memReadOor] }) := by
  simp [fetch32, memRead32_eq, State.setPc]

/-- A 4-byte operand that lies whole in memory is fetched alike under either value of `IMM_FETCH`. -/
theorem fetch32_in_range (f : ImmFetch) {s : State} (h : s.pc.toNat + 4 ≤ Config.capacity) :
    fetch32 f s = fetch32 .word s := by
  cases f with
  | word => rfl
  | bytewise =>
    have hc : Config.capacity = 4096 := rfl
    have h1 : (s.pc + 1#32).toNat = s.pc.toNat + 1 := by rw [BitVec.toNat_add]; simp; omega
    have h2 : (s.pc + 1#32 + 1#32).toNat = s.pc.toNat + 2 := by rw [BitVec.toNat_add, h1]; simp; omega
    have h3 : (s.pc + 1#32 + 1#32 + 1#32).toNat = s.pc.toNat + 3 := by rw [BitVec.toNat_add, h2]; simp; omega
    have h4 : s.pc + 1#32 + 1#32 + 1#32 + 1#32 = s.pc + 4#32 := by simp [BitVec.add_assoc]
    have b0 : s.pc.toNat < Config.capacity := by omega
    have b1 : s.pc.toNat + 1 < Config.capacity := by omega
    have b2 : s.pc.toNat + 2 < Config.capacity := by omega
    have b3 : s.pc.toNat + 3 < Config.capacity := by omega
    rw [fetch32_word_eq]
    simp [fetch32, fetch8_eq, h1, h2, h3, h4, b0, b1, b2, b3]

/-! ### Registers -/

theorem regRead_eq (i : Byte) (s : State) :
    regRead i s = (s.regValue i, { s with diag := s.diag ++ if i.toNat < 8 then [] else [.badReg] }) := by
  unfold regRead State.regValue
  split <;> simp_all [State.logDiag]

theorem regWrite_eq (i : Byte) (v : Word) (s : State) :
    regWrite i v s = { s with
      regs := if h : i.toNat < 8 then s.regs.set i.toNat v h else s.regs
      diag := s.diag ++ if i.toNat < 8 then [] else [.badReg] } := by
  unfold regWrite
  split <;> simp_all [State.logDiag, State.setReg]

@[simp] theorem validReg_iff (i : Byte) : validReg i = true ↔ i.toNat < 8 := by simp [validReg]

/-- With valid register operands an effect is the same under either policy. -/
theorem withRegs_valid (p : BadRegPolicy) {regs : List Byte} (h : ∀ r ∈ regs, r.toNat < 8) (effect : State → State)
    (s : State) : withRegs p regs effect s = effect s := by
  cases p with
  | portDefault => rfl
  | squashInstruction =>
    simp only [withRegs]
    rw [if_pos (by simpa [List.all_eq_true] using h)]

@[simp] theorem withRegs_portDefault (regs : List Byte) (effect : State → State) (s : State) :
    withRegs .portDefault regs effect s = effect s := rfl

/-- Logging bad registers changes `DIAG` only. -/
theorem logBadRegs_frame (regs : List Byte) (s : State) :
    logBadRegs regs s = { s with diag := (logBadRegs regs s).diag } := by
  induction regs generalizing s with
  | nil => rfl
  | cons r regs ih =>
    simp only [logBadRegs]
    split
    · exact ih s
    · rw [ih (s.logDiag .badReg)]
      rfl

/-! ### Stack -/

theorem push_eq (v : Word) (s : State) :
    push v s = { s with
      stack := if s.sp = 0#8 then s.stack else s.stack.write s.sp.toNat v
      sp := if s.sp = 0#8 then s.sp else s.sp - 1#8
      diag := s.diag ++ if s.sp = 0#8 then [.stackOverflow] else [] } := by
  unfold push
  split <;> simp_all [State.logDiag, State.setSlot, State.setSp]

theorem pop_eq (s : State) :
    pop s = (if 255 ≤ s.sp.toNat then none else some (s.stack.read (s.sp.toNat + 1)),
      { s with
        sp := if 255 ≤ s.sp.toNat then s.sp else s.sp + 1#8
        diag := s.diag ++ if 255 ≤ s.sp.toNat then [.stackUnderflow] else [] }) := by
  unfold pop
  split <;> simp_all [State.logDiag, State.setSp, Config.spEmpty]

/-! ### Services -/

/-- PRINT_STRING's loop changes `OUT` only. -/
theorem printLoop_frame (fuel a : Nat) (s : State) : printLoop fuel a s = { s with out := (printLoop fuel a s).out } := by
  induction fuel generalizing a s with
  | zero => rfl
  | succ fuel ih =>
    simp only [printLoop]
    split
    · rw [ih]
      rfl
    · rfl

/-- LOAD_DATA's loop changes memory and `DIAG` only. -/
theorem copyLoop_frame (fuel dst src n i : Nat) (s : State) :
    copyLoop fuel dst src n i s =
      { s with mem := (copyLoop fuel dst src n i s).mem, diag := (copyLoop fuel dst src n i s).diag } := by
  induction fuel generalizing i s with
  | zero => rfl
  | succ fuel ih =>
    simp only [copyLoop]
    split
    · split
      · rfl
      · rw [ih]
        rfl
    · rfl

/-- LOAD_DATA's loop keeps the canonical form of memory. -/
theorem copyLoop_mem_wf (fuel dst src n i : Nat) (s : State) (h : s.mem.wf) : (copyLoop fuel dst src n i s).mem.wf := by
  induction fuel generalizing i s with
  | zero => exact h
  | succ fuel ih =>
    simp only [copyLoop]
    split
    · split
      · exact h
      · exact ih _ _ (Memory.write_wf h (by omega) _)
    · exact h

/-! ### The end of an instruction, the entry of a run -/

theorem endCheck_eq (s : State) :
    endCheck s = { s with running := s.running && decide (s.pc.toNat < Config.capacity) } := by
  unfold endCheck
  split
  · have : ¬ s.pc.toNat < Config.capacity := by omega
    simp [State.setRunning, this]
  · have : s.pc.toNat < Config.capacity := by omega
    simp [this]

theorem enterRun_eq (s : State) : enterRun s = { s with running := decide (s.pc.toNat < Config.capacity) } := by
  rw [enterRun, endCheck_eq]
  simp only [State.setRunning, Bool.true_and]
  rfl

/-! ### The image of a backing file -/

theorem restoreImage_fst (b : Option (List Byte)) :
    (restoreImage b).1 = match b with
      | none => []
      | some bs =>
        if bs.length = Config.capacity then Memory.ofImage fun a => bs.getD a 0#8
        else Memory.ofImage (Config.mismatchImage bs) := by
  cases b with
  | none => rfl
  | some bs =>
    by_cases h : bs.length = Config.capacity
    · simp only [restoreImage, if_pos h]
    · simp only [restoreImage, if_neg h]

theorem restoreImage_wf (b : Option (List Byte)) : (restoreImage b).1.wf := by
  rw [restoreImage_fst]
  cases b with
  | none => exact cellsWf_nil _
  | some bs =>
    simp only
    split
    · exact Memory.ofImage_wf fun a => bs.getD a 0#8
    · exact Memory.ofImage_wf (Config.mismatchImage bs)

end Sys2Proof.Machine
end

