-- ==== Sys2Proof/Laws/PerInstr.lean ====
section
/-! SUPPORT. The statements made of every instruction, one lemma per constructor. -/

namespace Sys2Proof.Laws.EncodedLength

/-- The encoding of an instruction has as many bytes as the instruction's length (30_encoding.md rules R81, R82). -/
def Statement (i : Instr) : Prop := (encode i).length = i.length

theorem halt : Statement .halt := rfl

theorem load (reg : Byte) (imm32 : Word) : Statement (.load reg imm32) := rfl

theorem store (reg : Byte) (addr32 : Word) : Statement (.store reg addr32) := rfl

theorem add (dst src1 src2 : Byte) : Statement (.add dst src1 src2) := rfl

theorem sub (dst src1 src2 : Byte) : Statement (.sub dst src1 src2) := rfl

theorem mul (dst src1 src2 : Byte) : Statement (.mul dst src1 src2) := rfl

theorem div (dst src1 src2 : Byte) : Statement (.div dst src1 src2) := rfl

theorem push (reg : Byte) : Statement (.push reg) := rfl

theorem pop (reg : Byte) : Statement (.pop reg) := rfl

theorem syscallPrintString : Statement .syscallPrintString := rfl

theorem syscallLoadData : Statement .syscallLoadData := rfl

theorem syscall (code : Byte) : Statement (.syscall code) := rfl

theorem unknown (op : Byte) : Statement (.unknown op) := rfl

end Sys2Proof.Laws.EncodedLength
end

