-- ==== Sys2Proof/Laws/Step.lean ====
section
/-! SUPPORT. What exec and step can do, said once: exec always answers the effect, an active step is the engine's, and each
instruction's effect has a frame. -/

namespace Sys2Proof.Machine

/-- exec answers the effect of the instruction under the spec's policy. -/
theorem exec_eq (i : Instr) (s : State) : exec i s = .next (effectUnder Config.badRegPolicy i s) := by
  cases i <;> rfl

/-- An active step is the engine's step under the spec's policies. -/
theorem step_active {s : State} (h : s.active = true) :
    step s = .next (engineStepUnder Config.badRegPolicy Config.immFetch s) := by
  simp [step, h, engineStep, exec_eq, onNext, engineStepUnder]

/-- With `running` true and nothing to fetch a step leaves the loop. -/
theorem step_exit {s : State} (h : s.running = true) (hpc : Config.capacity ≤ s.pc.toNat) :
    step s = .next { s with running := false } := by
  have : s.active = false := by
    simp [State.active]
    omega
  simp [step, this, h, State.setRunning]

/-- While the engine is stopped a step is the host's. -/
theorem step_stopped {s : State} (h : s.running = false) : step s = hostStep s := by
  simp [step, State.active, h]

/-- The host's run, one step unrolled. -/
theorem run_succ (M : Host.Core) {s t : M.State} (h : M.step s = .next t) (k : Nat) : M.run (k + 1) s = M.run k t := by
  simp only [Host.Core.run, h]

/-- The host's run of this machine, one step unrolled. -/
theorem core_run_succ {s t : State} (h : step s = .next t) (k : Nat) :
    Sys2Proof.core.run (k + 1) s = Sys2Proof.core.run k t :=
  run_succ Sys2Proof.core h k

/-! ### Frames of the effects -/

theorem aluOp_eq (f : Word → Word → Word × Option Diag) (d a b : Byte) (s : State) :
    aluOp .portDefault f d a b s = { s with
      regs := if h : d.toNat < 8 then s.regs.set d.toNat (f (s.regValue a) (s.regValue b)).1 h else s.regs
      diag := s.diag ++ (if a.toNat < 8 then [] else [.badReg]) ++ (if b.toNat < 8 then [] else [.badReg]) ++
        (f (s.regValue a) (s.regValue b)).2.toList ++ (if d.toNat < 8 then [] else [.badReg]) } := by
  simp only [aluOp, withRegs_portDefault, regRead_eq]
  have : ∀ x, State.regValue { s with diag := x } b = s.regValue b := fun _ => rfl
  simp only [this]
  rcases f (s.regValue a) (s.regValue b) with ⟨v, _ | k⟩ <;> simp [regWrite_eq, State.logDiag]

theorem loadUnder_eq (r : Byte) (v : Word) (s : State) :
    loadUnder .portDefault r v s = { s with
      regs := if h : r.toNat < 8 then s.regs.set r.toNat v h else s.regs
      diag := s.diag ++ if r.toNat < 8 then [] else [.badReg] } := by
  simp [loadUnder, regWrite_eq]

theorem storeUnder_eq (r : Byte) (a : Word) (s : State) :
    storeUnder .portDefault r a s = { s with
      mem := if a.toNat + 3 < Config.capacity then s.mem.writeBytes a.toNat (beBytes (s.regValue r)) else s.mem
      diag := s.diag ++ (if r.toNat < 8 then [] else [.badReg]) ++
        if a.toNat + 3 < Config.capacity then [] else [.memWriteOor] } := by
  simp [storeUnder, regRead_eq, memWrite32_eq]

theorem pushUnder_eq (r : Byte) (s : State) :
    pushUnder .portDefault r s = { s with
      stack := if s.sp = 0#8 then s.stack else s.stack.write s.sp.toNat (s.regValue r)
      sp := if s.sp = 0#8 then s.sp else s.sp - 1#8
      diag := s.diag ++ (if r.toNat < 8 then [] else [.badReg]) ++ if s.sp = 0#8 then [.stackOverflow] else [] } := by
  simp [pushUnder, regRead_eq, push_eq]

theorem popUnder_eq_empty (r : Byte) {s : State} (h : 255 ≤ s.sp.toNat) :
    popUnder .portDefault r s = { s with diag := s.diag ++ [.stackUnderflow] } := by
  simp [popUnder, pop_eq, h]

theorem popUnder_eq (r : Byte) {s : State} (h : s.sp.toNat < 255) :
    popUnder .portDefault r s = { s with
      regs := if hr : r.toNat < 8 then s.regs.set r.toNat (s.stack.read (s.sp.toNat + 1)) hr else s.regs
      sp := s.sp + 1#8
      diag := s.diag ++ if r.toNat < 8 then [] else [.badReg] } := by
  have : ¬ 255 ≤ s.sp.toNat := by omega
  simp [popUnder, pop_eq, this, regWrite_eq]

end Sys2Proof.Machine
end

