-- ==== Sys2Proof/Tests/Slice0.lean ====
section
/-! SUPPORT. Tests: the well-formedness smoke test, the encodings written out from 30_encoding.md, single steps with their
results taken from 95_test_vectors.md (each test names its vector), and for every statement with hypotheses a witness that
meets them all. -/

namespace Sys2Proof.Tests

open Sys2Proof.Machine

/-! ### Well-formedness -/

/-- Rule R92: codes 0x01 and 0x02 belong to the two rows of their own. -/
theorem test_wf_refuses_syscall_print : Instr.wf (.syscall 0x01#8) = false := by decide

theorem test_wf_refuses_syscall_load : Instr.wf (.syscall 0x02#8) = false := by decide

/-- Rule R86: a defined opcode byte is not unknown. -/
theorem test_wf_refuses_defined_opcodes : definedOpcodes.all (fun op => !(Instr.wf (.unknown op))) = true := by decide

theorem test_wf_admits_any_register :
    Instr.wf (.add 8#8 255#8 0#8) = true ∧ Instr.wf (.syscall 0xFF#8) = true ∧ Instr.wf (.unknown 0x00#8) = true := by
  decide

/-! ### Decoding, the rows of 95_test_vectors.md part 2.1 -/

theorem test_decode_halt : decode [0x01#8] = .ok (.halt, []) := rfl

theorem test_decode_load :
    decode [0x10#8, 0x03#8, 0x12#8, 0x34#8, 0x56#8, 0x78#8] = .ok (.load 3#8 0x12345678#32, []) := rfl

theorem test_decode_store : decode [0x11#8, 0#8, 0#8, 0#8, 0#8, 0x10#8] = .ok (.store 0#8 0x10#32, []) := rfl

theorem test_decode_add : decode [0x20#8, 0x02#8, 0x00#8, 0x01#8] = .ok (.add 2#8 0#8 1#8, []) := rfl

theorem test_decode_sub : decode [0x21#8, 0x03#8, 0x01#8, 0x00#8] = .ok (.sub 3#8 1#8 0#8, []) := rfl

theorem test_decode_mul : decode [0x22#8, 0x04#8, 0x00#8, 0x01#8] = .ok (.mul 4#8 0#8 1#8, []) := rfl

theorem test_decode_div : decode [0x23#8, 0x05#8, 0x00#8, 0x01#8] = .ok (.div 5#8 0#8 1#8, []) := rfl

theorem test_decode_push : decode [0x30#8, 0x07#8] = .ok (.push 7#8, []) := rfl

theorem test_decode_pop : decode [0x31#8, 0xFF#8] = .ok (.pop 255#8, []) := rfl

theorem test_decode_print_string : decode [0xFF#8, 0x01#8] = .ok (.syscallPrintString, []) := rfl

theorem test_decode_load_data : decode [0xFF#8, 0x02#8] = .ok (.syscallLoadData, []) := rfl

theorem test_decode_syscall : decode [0xFF#8, 0x00#8] = .ok (.syscall 0#8, []) := rfl

/-- The row of ten unknown bytes. -/
theorem test_decode_unknown :
    [0x02#8, 0x0F#8, 0x12#8, 0x1F#8, 0x24#8, 0x2F#8, 0x32#8, 0x40#8, 0xAB#8, 0xFE#8].all
      (fun op => decodeFields op 0#8 0#8 0#8 0#32 == .unknown op) = true := by decide

/-- The count check below the table: 246 unknown opcode bytes. -/
theorem test_unknown_count :
    ((List.range 256).filter fun n => Instr.wf (.unknown (BitVec.ofNat 8 n))).length = 246 := by decide +kernel

/-- The words of the opcode table's rows, byte 0 most significant. -/
theorem test_table_words :
    decodeTableWord 8 0x01 = some .halt ∧ decodeTableWord 48 0x100000000000 = some (.load 0#8 0#32) ∧
    decodeTableWord 48 0x110000000000 = some (.store 0#8 0#32) ∧ decodeTableWord 32 0x20000000 = some (.add 0#8 0#8 0#8) ∧
    decodeTableWord 32 0x21000000 = some (.sub 0#8 0#8 0#8) ∧ decodeTableWord 32 0x22000000 = some (.mul 0#8 0#8 0#8) ∧
    decodeTableWord 32 0x23000000 = some (.div 0#8 0#8 0#8) ∧ decodeTableWord 16 0x3000 = some (.push 0#8) ∧
    decodeTableWord 16 0x3100 = some (.pop 0#8) ∧ decodeTableWord 16 0xFF01 = some .syscallPrintString ∧
    decodeTableWord 16 0xFF02 = some .syscallLoadData ∧ decodeTableWord 16 0xFF00 = some (.syscall 0#8) ∧
    decodeTableWord 8 0x00 = some (.unknown 0#8) := by decide

/-! ### Small states -/

/-- The reset state (95_test_vectors.md, conventions) with some bytes at `pc` and the run begun. -/
def ready (pc : Nat) (bs : List Byte) : State :=
  { State.reset with running := true, pc := BitVec.ofNat 32 pc, mem := Memory.writeBytes [] pc bs }

/-- The same state with some registers. -/
def givenRegs (rs : Vector Word 8) (s : State) : State := { s with regs := rs }

/-- The same state with some bytes at another address. -/
def withBytes (a : Nat) (bs : List Byte) (s : State) : State := { s with mem := s.mem.writeBytes a bs }

/-- The same state, stopped, with transactions waiting. -/
def withHost (ops : List HostOp) (s : State) : State := { s with running := false, pending := ops }

/-- The state after one step; the steps tested here are never refused. -/
def after (s : State) : State :=
  match step s with
  | .next t => t
  | .fault _ => s
  | .refused _ => s

/-- Four bytes of memory. -/
def four (s : State) (a : Nat) : List Byte := [s.mem.read a, s.mem.read (a + 1), s.mem.read (a + 2), s.mem.read (a + 3)]

/-- Registers x[0] to x[3] set, the others 0. -/
def regs4 (a b c d : Word) : Vector Word 8 := #v[a, b, c, d, 0#32, 0#32, 0#32, 0#32]

/-! ### Single steps -/

/-- X5. -/
theorem test_halt_at_end :
    let t := after (ready 4095 [0x01#8])
    t.pc = 4096#32 ∧ t.running = false ∧ t.diag = [] := by decide

/-- L3. -/
theorem test_load_big_endian :
    let t := after (ready 0 [0x10#8, 0x03#8, 0x12#8, 0x34#8, 0x56#8, 0x78#8])
    t.regs[3] = 0x12345678#32 ∧ t.pc = 6#32 ∧ t.running = true := by decide

/-- E6: the operand straddles the end of memory. -/
theorem test_load_straddles_end :
    let t := after (givenRegs (regs4 0#32 0x99#32 0#32 0#32) (ready 4092 [0x10#8, 0x01#8, 0xAA#8, 0xBB#8]))
    t.regs[1] = 0#32 ∧ t.pc = 4098#32 ∧ t.diag = [.memReadOor] ∧ t.running = false := by decide

/-- E6 with `IMM_FETCH` = `bytewise`. -/
theorem test_load_straddles_end_bytewise :
    let s := givenRegs (regs4 0#32 0x99#32 0#32 0#32) (ready 4092 [0x10#8, 0x01#8, 0xAA#8, 0xBB#8])
    let t := engineStepUnder Config.badRegPolicy .bytewise s
    t.regs[1] = 0xAABB0000#32 ∧ t.diag = [.memReadOor, .memReadOor] := by decide

/-- T2: the last storable address. -/
theorem test_store_last_word :
    let t := after (givenRegs (regs4 0#32 0x12345678#32 0#32 0#32) (ready 0 [0x11#8, 0x01#8, 0#8, 0#8, 0x0F#8, 0xFC#8]))
    four t 4092 = [0x12#8, 0x34#8, 0x56#8, 0x78#8] ∧ t.diag = [] ∧ t.pc = 6#32 := by decide

/-- T3: one byte further nothing is written. -/
theorem test_store_partly_out_of_range :
    let s := givenRegs (regs4 0#32 0x12345678#32 0#32 0#32) (ready 0 [0x11#8, 0x01#8, 0#8, 0#8, 0x0F#8, 0xFD#8])
    (after s).mem = s.mem ∧ (after s).diag = [.memWriteOor] := by decide

/-- A2: all three operands are the same register. -/
theorem test_add_same_register :
    (after (givenRegs (regs4 0#32 0x80000001#32 0#32 0#32) (ready 0 [0x20#8, 1#8, 1#8, 1#8]))).regs[1] = 2#32 := by decide

/-- A7: a bad `src1` reads 0; the other policy leaves the register. -/
theorem test_add_bad_source :
    let s := givenRegs (regs4 0#32 5#32 0x77#32 0#32) (ready 0 [0x20#8, 2#8, 8#8, 1#8])
    (after s).regs[2] = 5#32 ∧ (after s).diag = [.badReg] ∧
    (engineStepUnder .squashInstruction Config.immFetch s).regs[2] = 0x77#32 := by decide

/-- Part 2.4: 2 minus 0xFFFFFFFF is 3 (program P2, step 5). -/
theorem test_sub_wraps :
    (after (givenRegs (regs4 0xFFFFFFFF#32 2#32 0#32 0#32) (ready 0 [0x21#8, 3#8, 1#8, 0#8]))).regs[3] = 3#32 := by decide

/-- Part 2.4: 0x12345678 times 0x100 is 0x34567800. -/
theorem test_mul_low_half :
    (after (givenRegs (regs4 0x12345678#32 0x100#32 0#32 0#32) (ready 0 [0x22#8, 3#8, 0#8, 1#8]))).regs[3] =
      0x34567800#32 := by decide

/-- A10: three bad registers. -/
theorem test_mul_three_bad :
    let s := ready 0 [0x22#8, 8#8, 9#8, 10#8]
    (after s).regs = s.regs ∧ (after s).diag = [.badReg, .badReg, .badReg] := by decide

/-- Part 2.4: 0xFFFFFFFF divided by 2 is 0x7FFFFFFF, unsigned. -/
theorem test_div_unsigned :
    (after (givenRegs (regs4 0xFFFFFFFF#32 2#32 0#32 0#32) (ready 0 [0x23#8, 3#8, 0#8, 1#8]))).regs[3] =
      0x7FFFFFFF#32 := by decide

/-- A9: a bad `src2` reads 0, so the divisor is zero. -/
theorem test_div_bad_divisor :
    let t := after (givenRegs (regs4 0#32 9#32 0x77#32 0#32) (ready 0 [0x23#8, 2#8, 1#8, 10#8]))
    t.regs[2] = 0#32 ∧ t.diag = [.badReg, .divZero] ∧ t.running = true := by decide

/-- K2. -/
theorem test_push :
    let t := after (givenRegs (regs4 0#32 0x11#32 0#32 0#32) (ready 0 [0x30#8, 1#8]))
    t.stack.read 255 = 0x11#32 ∧ t.sp = 254#8 ∧ t.regs[1] = 0x11#32 := by decide

/-- K4: a push on the full stack. -/
theorem test_push_full :
    let s := { givenRegs (regs4 0#32 0x99#32 0#32 0#32) (ready 0 [0x30#8, 1#8]) with sp := 0#8, stack := [(1, 0x42#32)] }
    (after s).sp = 0#8 ∧ (after s).stack = s.stack ∧ (after s).diag = [.stackOverflow] := by decide

/-- K5. -/
theorem test_pop :
    let t := after { ready 0 [0x31#8, 5#8] with sp := 0#8, stack := [(1, 0x42#32)] }
    t.sp = 1#8 ∧ t.regs[5] = 0x42#32 := by decide

/-- K9: a pop on the empty stack to a bad register logs the underflow only. -/
theorem test_pop_empty :
    let s := ready 0 [0x31#8, 8#8]
    (after s).sp = 255#8 ∧ (after s).regs = s.regs ∧ (after s).diag = [.stackUnderflow] := by decide

/-- Y1. -/
theorem test_print_string :
    let t := after (givenRegs (regs4 0x20#32 0#32 0#32 0#32) (withBytes 0x20 [0x48#8, 0x69#8, 0#8] (ready 0 [0xFF#8, 1#8])))
    t.out = [0x48#8, 0x69#8] ∧ t.pc = 2#32 := by decide

/-- Y3: the string runs to the end of memory. -/
theorem test_print_to_end :
    let t := after (givenRegs (regs4 4094#32 0#32 0#32 0#32) (withBytes 4094 [0x4F#8, 0x4B#8] (ready 0 [0xFF#8, 1#8])))
    t.out = [0x4F#8, 0x4B#8] ∧ t.diag = [] := by decide

/-- Y8: the overlapping forward copy replicates. -/
theorem test_load_data_overlap :
    let t := after (givenRegs (regs4 0x41#32 0x40#32 3#32 0#32)
      (withBytes 0x40 [1#8, 2#8, 3#8, 4#8] (ready 0 [0xFF#8, 2#8])))
    four t 0x40 = [1#8, 1#8, 1#8, 1#8] ∧ t.diag = [] := by decide

/-- Y11: the copy stops at the end of memory. -/
theorem test_load_data_end :
    let t := after (givenRegs (regs4 4094#32 0x40#32 4#32 0#32)
      (withBytes 0x40 [1#8, 2#8, 3#8, 4#8] (ready 0 [0xFF#8, 2#8])))
    t.mem.read 4094 = 1#8 ∧ t.mem.read 4095 = 2#8 ∧ t.diag = [.copyOor] := by decide

/-- E3: the code byte beyond the end of memory is 0. -/
theorem test_syscall_at_end :
    let t := after (ready 4095 [0xFF#8])
    t.pc = 4097#32 ∧ t.diag = [.memReadOor, .unknownSyscall] ∧ t.running = false := by decide

/-- X2, the source's example S5. -/
theorem test_unknown_stops :
    let s := ready 0 [0xAB#8]
    (after s).running = false ∧ (after s).pc = 1#32 ∧ (after s).regs = s.regs ∧ (after s).diag = [.unknownOpcode] := by
  decide

/-- Program P6, last push: the end-of-memory check ends the run with no diagnostic of its own. -/
theorem test_end_of_memory :
    let t := after (ready 4094 [0x30#8, 0#8])
    t.pc = 4096#32 ∧ t.running = false ∧ t.sp = 254#8 ∧ t.diag = [] := by decide

/-! ### The host -/

/-- H3, the source's example S7: residual memory stays. -/
theorem test_load_program_residue :
    let s := withHost [.loadProgram [1#8, 2#8, 3#8, 4#8] 4] (withBytes 8 [0x5A#8] State.reset)
    four (after s) 0 = [1#8, 2#8, 3#8, 4#8] ∧ (after s).mem.read 8 = 0x5A#8 ∧ (after s).pending = [] := by decide

/-- H5: reset with the backing image absent. -/
theorem test_reset_absent_image :
    let t := after (withHost [.reset] (givenRegs (regs4 1#32 2#32 3#32 4#32) (ready 13 [0x5A#8])))
    t = { State.reset with diag := [.restoreWarn] } := by decide

/-- H7. -/
theorem test_print_state :
    let s := withHost [.printState] (givenRegs (regs4 0x2A#32 0#32 0#32 0#32) (ready 13 []))
    (after s).diag = [.stateDump 13#32 (regs4 0x2A#32 0#32 0#32 0#32)] := by decide

/-- X7: a run with nothing to fetch performs no step. -/
theorem test_run_at_end :
    let t := after (withHost [.run] (ready 4096 []))
    t.pc = 4096#32 ∧ t.running = false ∧ t.diag = [] := by decide

/-- `withFetchWord` places LOAD R3, 0x12345678 as the first instruction after reset. -/
theorem test_with_fetch_word :
    (after (State.reset.withFetchWord 48 0x100312345678)).regs[3] = 0x12345678#32 := by decide

/-! ### Witnesses: states and operands that meet every hypothesis of a statement, at the edges of its clauses -/

/-- A stopped machine with one transaction waiting, after it `printState()`. -/
def waiting (op : HostOp) : State := withHost [op, .printState] (ready 13 [0x5A#8])

theorem witness_DecodeOfEncode :
    Instr.wf (.pop 255#8) = true ∧ Instr.wf (.syscall 0x00#8) = true ∧ Instr.wf (.syscall 0x03#8) = true ∧
    Instr.wf (.unknown 0xFE#8) = true := by decide

theorem witness_EncodeOfDecode : decode [0x30#8, 0xFF#8, 0xAA#8] = .ok (.push 255#8, [0xAA#8]) := rfl

theorem witness_LengthFromOpcodeAlone :
    specLength 0x10#8 ≤ [0#8, 0#8, 0#8, 0#8, 0#8].length + 1 ∧ [0#8, 0#8, 0#8, 0#8].length + 1 < specLength 0x10#8 := by
  decide

theorem witness_UnknownOpcodeBytes :
    0x00#8 ∉ definedOpcodes ∧ 0x02#8 ∉ definedOpcodes ∧ 0xFE#8 ∉ definedOpcodes ∧ 0x01#8 ∈ definedOpcodes ∧
    0xFF#8 ∈ definedOpcodes := by decide

theorem witness_FetchReadsOperands : (ready 4095 [0x11#8]).pc.toNat < Config.capacity := by decide

theorem witness_StepRunsDecoded :
    let s := ready 4094 [0x30#8, 0x07#8]
    s.active = true ∧ s.holdsBytes s.pc.toNat [0x30#8, 0x07#8] ∧
    decode [0x30#8, 0x07#8] = .ok (.push 7#8, []) := by
  refine ⟨by decide, ?_, rfl⟩
  unfold State.holdsBytes
  decide

theorem witness_ActiveStepCompletes : (ready 4095 [0x00#8]).active = true := by decide

theorem witness_PcAdvancesByLength :
    (ready 4095 [0x11#8]).active = true ∧
    exec .halt (ready 4095 []) = .next ((ready 4095 []).setRunning false) ∧
    step (waiting .reset) = .next (after (waiting .reset)) ∧ (after (waiting .reset)).pc ≠ (waiting .reset).pc :=
  ⟨by decide, rfl, rfl, by decide⟩

/-- One active state for each side of the check: `pc` after the step is 4094, and 4096. -/
theorem witness_EndOfMemoryStopsRun :
    (ready 4092 [0x30#8, 0#8]).active = true ∧ (ready 4094 [0x30#8, 0#8]).active = true := by decide

theorem witness_RunTerminates : (ready 0 []).running = true ∧ (ready 4096 []).running = true := by decide

/-- A run for each of the three stop causes (vectors X1, X2, E7); a HALT and an unknown opcode at 4095 report their own (X5,
X6); a run with nothing to fetch (X8). -/
theorem witness_RunHasStopCause :
    (runWhole (ready 0 [0x01#8])).2 = some .halt ∧ (runWhole (ready 0 [0xAB#8])).2 = some .unknownOpcode ∧
    (runWhole (ready 4090 [0x10#8, 0x01#8, 0#8, 0#8, 0#8, 7#8])).2 = some .pcEnd ∧
    (runWhole (ready 4095 [0x01#8])).2 = some .halt ∧ (runWhole (ready 4095 [0x00#8])).2 = some .unknownOpcode ∧
    (runWhole (ready 4101 [])).2 = some .pcEnd ∧ (ready 4101 []).pc.toNat ≤ 4101 := by decide

theorem witness_RunStaysEven :
    let s := ready 4092 [0x30#8, 0#8]
    s.active = true ∧ s.pc.toNat % 2 = 0 ∧ step s = .next (after s) ∧ (after s).running = true :=
  ⟨by decide, by decide, rfl, by decide⟩

/-- The last valid index and the first invalid one, for both register ports. -/
theorem witness_RegisterWritePort : (7#8).toNat < 8 ∧ 8 ≤ (8#8).toNat := by decide

theorem witness_RegisterReadPort : (7#8).toNat < 8 ∧ 8 ≤ (8#8).toNat := by decide

theorem witness_ByteAccess : (ready 0 [0x5A#8]).mem.wf ∧ 4095 < 4096 ∧ 4096 ≤ 4096 := by decide

theorem witness_WordAccess : (ready 0 [0x5A#8]).mem.wf ∧ 4092 ≤ 4092 ∧ 4093 ≤ 4093 := by decide

theorem witness_HaltStops :
    (ready 4095 [0x01#8]).active = true ∧
    (ready 4095 [0x01#8]).mem.read (ready 4095 [0x01#8]).pc.toNat = 0x01#8 := by decide

theorem witness_UnknownOpcodeStops :
    (ready 4095 [0x00#8]).active = true ∧
    (ready 4095 [0x00#8]).mem.read (ready 4095 [0x00#8]).pc.toNat ∉ definedOpcodes := by decide

theorem witness_LoadSetsRegister :
    (7#8).toNat < 8 ∧ 8 ≤ (8#8).toNat ∧
    (let s := ready 4090 [0x10#8, 8#8, 1#8, 2#8, 3#8, 4#8]
     s.active = true ∧ s.holdsBytes s.pc.toNat [0x10#8, 8#8, 1#8, 2#8, 3#8, 4#8]) := by
  unfold State.holdsBytes
  decide

theorem witness_StoreSetsFourBytes :
    (ready 0 [0x5A#8]).mem.wf ∧ (0xFFC#32).toNat ≤ 4092 ∧ 4093 ≤ (0xFFD#32).toNat ∧ 8 ≤ (8#8).toNat := by decide

/-- The STORE at 4086 writes the HALT at 4092 that follows it. -/
theorem witness_StoredBytesAreFetched :
    let s := givenRegs (regs4 0x01000000#32 0#32 0#32 0#32) (ready 4086 [0x11#8, 0#8, 0#8, 0#8, 0x0F#8, 0xFC#8])
    s.active = true ∧ s.mem.wf ∧ s.pc.toNat + 10 ≤ Config.capacity ∧
    s.holdsBytes s.pc.toNat (encode (.store 0#8 (s.pc + 6#32))) ∧
    decode (beBytes s.regs[(0#8).toNat]) = .ok (.halt, [0#8, 0#8, 0#8]) := by
  refine ⟨by decide, by decide, by decide, ?_, rfl⟩
  unfold State.holdsBytes
  decide

/-- An instruction of four bytes that ends with the last byte of memory. -/
theorem witness_AddWraps :
    let s := ready 4092 [0x20#8, 7#8, 0#8, 7#8]
    (7#8).toNat < 8 ∧ (0#8).toNat < 8 ∧ s.active = true ∧ s.holdsBytes s.pc.toNat [0x20#8, 7#8, 0#8, 7#8] := by
  unfold State.holdsBytes
  decide

theorem witness_SubWraps :
    let s := ready 4092 [0x21#8, 7#8, 0#8, 7#8]
    (7#8).toNat < 8 ∧ (0#8).toNat < 8 ∧ s.active = true ∧ s.holdsBytes s.pc.toNat [0x21#8, 7#8, 0#8, 7#8] := by
  unfold State.holdsBytes
  decide

theorem witness_MulKeepsLowHalf :
    let s := ready 4092 [0x22#8, 7#8, 0#8, 7#8]
    (7#8).toNat < 8 ∧ (0#8).toNat < 8 ∧ s.active = true ∧ s.holdsBytes s.pc.toNat [0x22#8, 7#8, 0#8, 7#8] := by
  unfold State.holdsBytes
  decide

theorem witness_DivFloorsOrZeroes :
    let s := givenRegs (regs4 9#32 1#32 0#32 0#32) (ready 4092 [0x23#8, 7#8, 0#8, 1#8])
    (7#8).toNat < 8 ∧ (0#8).toNat < 8 ∧ s.regs[(1#8).toNat] ≠ 0#32 ∧ s.regs[(2#8).toNat] = 0#32 ∧
    s.active = true ∧ s.holdsBytes s.pc.toNat [0x23#8, 7#8, 0#8, 1#8] := by
  unfold State.holdsBytes
  decide

/-- Each of the four alternatives, with a bad index in every place. -/
theorem witness_AluAnyIndices :
    (Instr.add 8#8 9#8 255#8 = .add 8#8 9#8 255#8 ∧
      (fun x y : Nat => (x + y) % 0x100000000) = fun x y => (x + y) % 0x100000000) ∧
    (Instr.sub 8#8 9#8 255#8 = .sub 8#8 9#8 255#8 ∧
      (fun x y : Nat => (x + 0x100000000 - y) % 0x100000000) = fun x y => (x + 0x100000000 - y) % 0x100000000) ∧
    (Instr.mul 8#8 9#8 255#8 = .mul 8#8 9#8 255#8 ∧
      (fun x y : Nat => (x * y) % 0x100000000) = fun x y => (x * y) % 0x100000000) ∧
    (Instr.div 8#8 9#8 255#8 = .div 8#8 9#8 255#8 ∧
      (fun x y : Nat => if y = 0 then 0 else x / y) = fun x y => if y = 0 then 0 else x / y) :=
  ⟨⟨rfl, rfl⟩, ⟨rfl, rfl⟩, ⟨rfl, rfl⟩, ⟨rfl, rfl⟩⟩

theorem witness_ArithmeticLaws :
    0#32 = 0#32 ∧ 1#32 ≠ 0#32 ∧ (0#32).toNat < (1#32).toNat ∧ (1#32).toNat ≤ (1#32).toNat := by decide

theorem witness_PushPrimitive :
    (ready 0 []).stack.wf ∧ { ready 0 [] with sp := 0#8 }.sp = 0#8 ∧ { ready 0 [] with sp := 1#8 }.sp ≠ 0#8 := by decide

theorem witness_PopPrimitive :
    255 ≤ (ready 0 []).sp.toNat ∧ { ready 0 [] with sp := 254#8 }.sp.toNat < 255 := by decide

theorem witness_PushInstruction : { ready 0 [] with stack := [(255, 7#32)], sp := 254#8 }.stack.wf := by decide

theorem witness_PopInstruction :
    255 ≤ (ready 0 []).sp.toNat ∧ { ready 0 [] with sp := 254#8 }.sp.toNat < 255 := by decide

theorem witness_StackHolds255 :
    (7#8).toNat < 8 ∧ (ready 0 []).sp = 255#8 ∧ (ready 0 []).stack.wf ∧ 255 ≤ 255 := by decide

/-- As many values as the empty stack takes. -/
theorem witness_LastInFirstOut :
    (ready 0 []).stack.wf ∧ (List.replicate 255 7#32).length ≤ (ready 0 []).sp.toNat :=
  ⟨by decide, by rw [List.length_replicate]; decide⟩

theorem witness_LoadDataCopies : (ready 0 [0xFF#8, 2#8]).mem.wf := by decide

theorem witness_UnknownServiceIsNoOp :
    let s := ready 4094 [0xFF#8, 3#8]
    3#8 ≠ 0x01#8 ∧ 3#8 ≠ 0x02#8 ∧ 0#8 ≠ 0x01#8 ∧ 0#8 ≠ 0x02#8 ∧ s.active = true ∧
    s.holdsBytes s.pc.toNat [0xFF#8, 3#8] := by
  unfold State.holdsBytes
  decide

theorem witness_OnlyNamedRegisterChanges :
    let s := ready 0 []
    let t := { s with regs := s.regs.set 7 5#32 }
    exec (.load 7#8 5#32) s = .next t ∧ t.regs[(7 : Fin 8)] ≠ s.regs[(7 : Fin 8)] := ⟨rfl, by decide⟩

theorem witness_OnlyPushPopTouchStack :
    exec .halt (ready 0 []) = .next ((ready 0 []).setRunning false) ∧ (∀ r, Instr.halt ≠ .push r) ∧
    (∀ r, Instr.halt ≠ .push r ∧ Instr.halt ≠ .pop r) := ⟨rfl, by simp, by simp⟩

/-- POP meets all three premises: it is none of the instructions that the three clauses name. -/
theorem witness_OnlyNamedInstructionsReachOutside :
    exec (.pop 0#8) (ready 0 []) = .next { ready 0 [] with diag := [.stackUnderflow] } ∧
    (∀ r a, Instr.pop 0#8 ≠ .store r a) ∧ Instr.pop 0#8 ≠ .syscallLoadData ∧ Instr.pop 0#8 ≠ .syscall 0x02#8 ∧
    Instr.pop 0#8 ≠ .syscallPrintString ∧ Instr.pop 0#8 ≠ .syscall 0x01#8 ∧ Instr.pop 0#8 ≠ .halt ∧
    (∀ op, Instr.pop 0#8 ≠ .unknown op) :=
  ⟨rfl, by simp, by simp, by simp, by simp, by simp, by simp, by simp⟩

/-- Both directions of the equivalence have a state: three bytes of four are too few. -/
theorem witness_OnlyShortLoadIsRefused :
    let s := waiting (.loadProgram [1#8, 2#8, 3#8] 4)
    step s = .refused (.shortProgramData 3 4) ∧ s.running = false ∧
    s.pending = .loadProgram [1#8, 2#8, 3#8] 4 :: [.printState] ∧ [1#8, 2#8, 3#8].length < min 4 4096 :=
  ⟨rfl, rfl, rfl, by decide⟩

theorem witness_StepKeepsInvariant :
    (ready 4095 [0x11#8]).Inv ∧ step (ready 4095 [0x11#8]) = .next (after (ready 4095 [0x11#8])) :=
  ⟨⟨by decide, by decide, rfl, by decide, by decide⟩, rfl⟩

/-- E7: the last LOAD that lies whole in memory. -/
theorem witness_PoliciesAgreeInRange :
    let s := ready 4090 [0x10#8, 7#8, 0#8, 0#8, 0#8, 7#8]
    s.active = true ∧ s.pc.toNat + (fetchInstr Config.immFetch s).1.length ≤ Config.capacity ∧
    (∀ r ∈ (fetchInstr Config.immFetch s).1.regOperands, r.toNat < 8) := by decide

/-- The four cases of the backing image all meet the hypotheses. -/
theorem witness_ResetTransaction :
    ∀ b ∈ [none, some [], some (List.replicate 4096 7#8), some (List.replicate 4097 7#8)],
      { waiting .reset with backing := b }.running = false ∧
      { waiting .reset with backing := b }.pending = .reset :: [.printState] := fun _ _ => ⟨rfl, rfl⟩

theorem witness_LoadProgramOverwritesFront :
    let s := waiting (.loadProgram [1#8, 2#8, 3#8, 4#8] 4)
    let u := waiting (.loadProgram [1#8, 2#8, 3#8] 4)
    s.running = false ∧ s.pending = .loadProgram [1#8, 2#8, 3#8, 4#8] 4 :: [.printState] ∧ s.mem.wf ∧
    min 4 4096 ≤ [1#8, 2#8, 3#8, 4#8].length ∧
    u.running = false ∧ u.pending = .loadProgram [1#8, 2#8, 3#8] 4 :: [.printState] ∧ u.mem.wf ∧
    [1#8, 2#8, 3#8].length < min 4 4096 := by decide

theorem witness_PersistWritesImage :
    (waiting .persistState).running = false ∧ (waiting .persistState).pending = .persistState :: [.printState] := by decide

theorem witness_PrintStateDumps :
    (waiting .printState).running = false ∧ (waiting .printState).pending = .printState :: [.printState] := by decide

/-- `pc` at the last address of memory, and at the first beyond it. -/
theorem witness_RunStartsAtCurrentPc :
    (withHost [.run] (ready 4095 [])).running = false ∧ (withHost [.run] (ready 4095 [])).pending = .run :: [] ∧
    (withHost [.run] (ready 4096 [])).running = false ∧ (withHost [.run] (ready 4096 [])).pending = .run :: [] := by decide

theorem witness_HostMovesOnlyWhenStopped :
    (ready 0 [0x01#8]).running = true ∧ step (ready 0 [0x01#8]) = .next (after (ready 0 [0x01#8])) ∧
    State.reset.running = false ∧ State.reset.pending = [] := ⟨rfl, rfl, rfl, rfl⟩

theorem witness_PersistThenResetKeepsMemory :
    let s := withHost [.persistState, .reset] (ready 13 [0x5A#8])
    s.running = false ∧ s.mem.wf ∧ s.pending = .persistState :: .reset :: [] := by decide

/-- The cases of the backing image. -/
theorem witness_PowerCycleKeepsBackingOnly :
    (ready 13 []).backing = none ∧
    { ready 13 [] with backing := some (List.replicate 4096 7#8) }.backing = some (List.replicate 4096 7#8) ∧
    (List.replicate 4096 7#8).length = 4096 ∧ (List.replicate 4097 7#8).length ≠ 4096 ∧ 4095 < 4096 :=
  ⟨rfl, rfl, List.length_replicate, by rw [List.length_replicate]; decide, by decide⟩

end Sys2Proof.Tests
end

section
/-! PROOFS. What an instruction may do to the state, said once: `EffectShape` lists the shapes an effect can have and which
instructions may have each; `exec_shape` says that every effect has one of them. -/

namespace Sys2Proof.Machine

/-- The register byte in which an instruction receives a result: `reg` of LOAD and POP, `dst` of the arithmetic (R21). -/
def destination : Instr → Option Byte
  | .load r _ => some r
  | .add d _ _ => some d
  | .sub d _ _ => some d
  | .mul d _ _ => some d
  | .div d _ _ => some d
  | .pop r => some r
  | _ => none

/-- The instructions that end the run themselves: HALT and every unknown opcode (R107, R108). -/
def StopsRun (i : Instr) : Prop := i = .halt ∨ ∃ op, i = .unknown op

/-- The instructions that may write memory: STORE and the service LOAD_DATA (R39). -/
def WritesMemory (i : Instr) : Prop := (∃ r a, i = .store r a) ∨ i = .syscallLoadData ∨ i = .syscall 0x02#8

/-- The instructions that may send bytes to `OUT`: the service PRINT_STRING (R161). -/
def PrintsBytes (i : Instr) : Prop := i = .syscallPrintString ∨ i = .syscall 0x01#8

/-- The state after an instruction, shape by shape. In every shape `DIAG` is only appended to. -/
inductive EffectShape (s : State) : Instr → State → Prop
  /-- Nothing but diagnostics. -/
  | log (i : Instr) (new : List Diag) : EffectShape s i { s with diag := s.diag ++ new }
  /-- The run ends. -/
  | stop {i : Instr} (hi : StopsRun i) (new : List Diag) :
      EffectShape s i { s with running := false, diag := s.diag ++ new }
  /-- A checked write of the destination register. -/
  | writeReg {i : Instr} {d : Byte} (hi : destination i = some d) (v : Word) (new : List Diag) :
      EffectShape s i { s with regs := (regWrite d v s).regs, diag := s.diag ++ new }
  /-- A successful pop, then a checked write of the destination register. -/
  | pop (r : Byte) (v : Word) (new : List Diag) :
      EffectShape s (.pop r) { s with regs := (regWrite r v s).regs, sp := s.sp + 1#8, diag := s.diag ++ new }
  /-- A successful push. -/
  | push (r : Byte) (hsp : s.sp ≠ 0#8) (v : Word) (new : List Diag) :
      EffectShape s (.push r)
        { s with stack := s.stack.write s.sp.toNat v, sp := s.sp - 1#8, diag := s.diag ++ new }
  /-- A memory write that keeps the canonical form. -/
  | writeMem {i : Instr} (hi : WritesMemory i) (m : Memory) (hm : s.mem.wf → m.wf) (new : List Diag) :
      EffectShape s i { s with mem := m, diag := s.diag ++ new }
  /-- Bytes sent to `OUT`. -/
  | print {i : Instr} (hi : PrintsBytes i) (out : List Byte) : EffectShape s i { s with out := out }

theorem badRegPolicy_eq : Config.badRegPolicy = .portDefault := rfl

/-! ### Registers -/

theorem regWrite_regs (i : Byte) (v : Word) (s : State) :
    (regWrite i v s).regs = if h : i.toNat < 8 then s.regs.set i.toNat v h else s.regs := by
  rw [regWrite_eq]

/-- A checked register write leaves every other register. -/
theorem regWrite_regs_of_ne {i : Byte} {j : Fin 8} (h : i.toNat ≠ j.val) (v : Word) (s : State) :
    (regWrite i v s).regs[j] = s.regs[j] := by
  rw [regWrite_regs]
  split
  · exact Vector.getElem_set_ne _ _ h
  · rfl

/-! ### The shape of each effect -/

theorem loadUnder_shape (r : Byte) (v : Word) (s : State) :
    EffectShape s (.load r v) (loadUnder .portDefault r v s) := by
  rw [loadUnder_eq, ← regWrite_regs]
  exact .writeReg rfl v _

theorem aluOp_shape {i : Instr} {d : Byte} (hi : destination i = some d) (f : Word → Word → Word × Option Diag)
    (a b : Byte) (s : State) : EffectShape s i (aluOp .portDefault f d a b s) := by
  rw [aluOp_eq, ← regWrite_regs]
  simp only [List.append_assoc]
  exact .writeReg hi _ _

theorem storeUnder_shape (r : Byte) (a : Word) (s : State) :
    EffectShape s (.store r a) (storeUnder .portDefault r a s) := by
  rw [storeUnder_eq, List.append_assoc]
  refine .writeMem (.inl ⟨r, a, rfl⟩) _ (fun hm => ?_) _
  split
  · exact Memory.writeBytes_wf hm _ (by simpa [beBytes])
  · exact hm

theorem pushUnder_shape (r : Byte) (s : State) : EffectShape s (.push r) (pushUnder .portDefault r s) := by
  rw [pushUnder_eq, List.append_assoc]
  by_cases hsp : s.sp = 0#8
  · simp only [if_pos hsp]
    exact .log _ _
  · simp only [if_neg hsp]
    exact .push r hsp _ _

theorem popUnder_shape (r : Byte) (s : State) : EffectShape s (.pop r) (popUnder .portDefault r s) := by
  by_cases hsp : 255 ≤ s.sp.toNat
  · rw [popUnder_eq_empty r hsp]
    exact .log _ _
  · rw [popUnder_eq r (Nat.lt_of_not_le hsp), ← regWrite_regs]
    exact .pop r _ _

theorem printString_shape {i : Instr} (hi : PrintsBytes i) (s : State) : EffectShape s i (printString s) := by
  rw [printString, printLoop_frame]
  exact .print hi _

/-- LOAD_DATA's loop only appends to `DIAG`. -/
theorem copyLoop_diag (fuel dst src n i : Nat) (s : State) :
    ∃ new : List Diag, (copyLoop fuel dst src n i s).diag = s.diag ++ new := by
  induction fuel generalizing i s with
  | zero => exact ⟨[], by simp [copyLoop]⟩
  | succ fuel ih =>
    simp only [copyLoop]
    split
    · split
      · exact ⟨[.copyOor], rfl⟩
      · exact ih _ _
    · exact ⟨[], by simp⟩

theorem loadData_shape {i : Instr} (hi : WritesMemory i) (s : State) : EffectShape s i (loadData s) := by
  obtain ⟨new, hnew⟩ :=
    copyLoop_diag (Config.capacity + 1) s.regs[0].toNat s.regs[1].toNat s.regs[2].toNat 0 s
  rw [loadData, copyLoop_frame, hnew]
  exact .writeMem hi _ (copyLoop_mem_wf _ _ _ _ _ s) new

theorem dispatchService_shape (c : Byte) (s : State) : EffectShape s (.syscall c) (dispatchService c s) := by
  unfold dispatchService
  split
  · next hc => exact printString_shape (.inr (congrArg Instr.syscall hc)) s
  · split
    · next hc => exact loadData_shape (.inr (.inr (congrArg Instr.syscall hc))) s
    · exact .log _ [.unknownSyscall]

theorem effectUnder_shape (i : Instr) (s : State) : EffectShape s i (effectUnder Config.badRegPolicy i s) := by
  rw [badRegPolicy_eq]
  cases i with
  | halt => simpa [effectUnder, State.setRunning] using EffectShape.stop (s := s) (.inl rfl) []
  | load r v => exact loadUnder_shape r v s
  | store r a => exact storeUnder_shape r a s
  | add d a b => exact aluOp_shape rfl addResult a b s
  | sub d a b => exact aluOp_shape rfl subResult a b s
  | mul d a b => exact aluOp_shape rfl mulResult a b s
  | div d a b => exact aluOp_shape rfl divResult a b s
  | push r => exact pushUnder_shape r s
  | pop r => exact popUnder_shape r s
  | syscallPrintString => exact printString_shape (.inl rfl) s
  | syscallLoadData => exact loadData_shape (.inr (.inl rfl)) s
  | syscall c => exact dispatchService_shape c s
  | unknown op => exact .stop (.inr ⟨op, rfl⟩) [.unknownOpcode]

/-- Whatever exec answers has one of the shapes. -/
theorem exec_shape {i : Instr} {s t : State} (h : exec i s = .next t) : EffectShape s i t := by
  rw [exec_eq] at h
  cases h
  exact effectUnder_shape i s

/-! ### What every shape keeps -/

namespace EffectShape

variable {i : Instr} {s t : State}

theorem pc_eq (h : EffectShape s i t) : t.pc = s.pc := by cases h <;> rfl

theorem backing_eq (h : EffectShape s i t) : t.backing = s.backing := by cases h <;> rfl

theorem pending_eq (h : EffectShape s i t) : t.pending = s.pending := by cases h <;> rfl

theorem diag_prefix (h : EffectShape s i t) : s.diag <+: t.diag := by
  cases h with
  | print => exact List.prefix_rfl
  | log | stop | writeReg | pop | push | writeMem => exact List.prefix_append ..

theorem running_eq (h : EffectShape s i t) (hi : ¬ StopsRun i) : t.running = s.running := by
  cases h with
  | stop hstop => exact absurd hstop hi
  | log | writeReg | pop | push | writeMem | print => rfl

theorem mem_eq (h : EffectShape s i t) (hi : ¬ WritesMemory i) : t.mem = s.mem := by
  cases h with
  | writeMem hw => exact absurd hw hi
  | log | stop | writeReg | pop | push | print => rfl

theorem out_eq (h : EffectShape s i t) (hi : ¬ PrintsBytes i) : t.out = s.out := by
  cases h with
  | print hp => exact absurd hp hi
  | log | stop | writeReg | pop | push | writeMem => rfl

theorem stack_eq (h : EffectShape s i t) (hi : ∀ r, i ≠ .push r) : t.stack = s.stack := by
  cases h with
  | push r => exact absurd rfl (hi r)
  | log | stop | writeReg | pop | writeMem | print => rfl

theorem sp_eq (h : EffectShape s i t) (hi : ∀ r, i ≠ .push r ∧ i ≠ .pop r) : t.sp = s.sp := by
  cases h with
  | push r => exact absurd rfl (hi r).1
  | pop r => exact absurd rfl (hi r).2
  | log | stop | writeReg | writeMem | print => rfl

/-- A register that changed is the instruction's destination. -/
theorem destination_of_regs_ne (h : EffectShape s i t) {j : Fin 8} (hj : t.regs[j] ≠ s.regs[j]) :
    ∃ d : Byte, d.toNat = j.val ∧ destination i = some d := by
  cases h with
  | @writeReg _ d hi v => exact ⟨d, of_not_not fun hd => hj (regWrite_regs_of_ne hd v s), hi⟩
  | pop r v => exact ⟨r, of_not_not fun hr => hj (regWrite_regs_of_ne hr v s), rfl⟩
  | log | stop | push | writeMem | print => exact absurd rfl hj

theorem mem_wf (h : EffectShape s i t) (hs : s.mem.wf) : t.mem.wf := by
  cases h with
  | writeMem _ m hm => exact hm hs
  | log | stop | writeReg | pop | push | print => exact hs

theorem stack_wf (h : EffectShape s i t) (hs : s.stack.wf) : t.stack.wf := by
  cases h with
  | push r _ v => exact Slots.write_wf hs s.sp.isLt v
  | log | stop | writeReg | pop | writeMem | print => exact hs

/-- A push writes at `sp`, and with `sp` at 0 it writes nothing: slot 0 keeps its value (R35). -/
theorem slot0_eq (h : EffectShape s i t) (hs : s.stack.wf) : t.stack.read 0 = s.stack.read 0 := by
  cases h with
  | push r hsp v =>
    have sp_pos : 0 ≠ s.sp.toNat := fun h0 => hsp (BitVec.eq_of_toNat_eq h0.symm)
    exact (Slots.read_write hs _ v 0).trans (if_neg sp_pos)
  | log | stop | writeReg | pop | writeMem | print => rfl

end EffectShape

end Sys2Proof.Machine
end

section
/-! PROOFS. What the fetch does to the state, and what a step of the machine can be. -/

namespace Sys2Proof.Machine

/-! ### The fetch -/

/-- The decoder's format has the length of the table in R82. -/
theorem formatLength_formatOf (op : Byte) : formatLength (formatOf op) = specLength op := by
  by_cases h : op ∈ definedOpcodes
  · simp only [definedOpcodes, List.mem_cons, List.not_mem_nil, or_false] at h
    rcases h with rfl | rfl | rfl | rfl | rfl | rfl | rfl | rfl | rfl | rfl <;> rfl
  · obtain ⟨hformat, hlength, -⟩ := undefined_opcode h
    rw [hformat, hlength]
    rfl

theorem specLength_bounds (op : Byte) : 1 ≤ specLength op ∧ specLength op ≤ 6 := by
  rw [← formatLength_formatOf]
  cases formatOf op <;> decide

/-- Below the end of memory the fetch decodes the byte at `pc`, moves `pc` by its length and otherwise only logs. -/
theorem fetchInstr_spec {s : State} (h : s.pc.toNat < Config.capacity) :
    ∃ (b1 b2 b3 : Byte) (imm : Word) (new : List Diag),
      fetchInstr Config.immFetch s = (decodeFields (s.mem.read s.pc.toNat) b1 b2 b3 imm,
        { s with
          pc := s.pc + BitVec.ofNat 32 (specLength (s.mem.read s.pc.toNat))
          diag := s.diag ++ new }) := by
  rw [← formatLength_formatOf, show Config.immFetch = .word from rfl]
  simp only [fetchInstr, fetch8_eq s, if_pos h]
  cases formatOf (s.mem.read s.pc.toNat) with
  | op => exact ⟨_, _, _, _, _, rfl⟩
  | opR | opC | opRRR | opRI =>
    simp only [fetch8_eq, fetch32_word_eq, List.append_assoc, BitVec.add_assoc]
    exact ⟨_, _, _, _, _, rfl⟩

end Sys2Proof.Machine
end

section
/-! PROOFS. One step of the machine: its four cases, what it does to `pc`, the invariant it keeps; then what each
instruction leaves alone, the register ports and the state after reset (10_state.md). -/

namespace Sys2Proof.Machine

/-! ### The cases of a step -/

/-- The state after an active step: the engine's step under the spec's policies D4 and D5. -/
def engineNext (s : State) : State := engineStepUnder Config.badRegPolicy Config.immFetch s

theorem step_engineNext {s : State} (h : s.active = true) : step s = .next (engineNext s) := step_active h

/-- A step is the engine's, the loop's exit, idling, or one host transaction. -/
theorem step_cases {s t : State} (h : step s = .next t) :
    (s.active = true ∧ t = engineNext s) ∨
    (s.running = true ∧ Config.capacity ≤ s.pc.toNat ∧ t = s.setRunning false) ∨
    (s.running = false ∧ s.pending = [] ∧ t = s) ∨
    (s.running = false ∧
      ∃ op rest, s.pending = op :: rest ∧ hostTransact op { s with pending := rest } = .next t) := by
  by_cases hactive : s.active = true
  · rw [step_engineNext hactive] at h
    cases h
    exact .inl ⟨hactive, rfl⟩
  obtain hrunning | hrunning := Bool.eq_false_or_eq_true s.running
  · have hpc : Config.capacity ≤ s.pc.toNat := by simpa [active_iff, hrunning] using hactive
    rw [step_exit hrunning hpc] at h
    cases h
    exact .inr (.inl ⟨hrunning, hpc, rfl⟩)
  · rw [step_stopped hrunning, hostStep] at h
    cases hpending : s.pending with
    | nil =>
      simp only [hpending] at h
      cases h
      exact .inr (.inr (.inl ⟨hrunning, rfl, rfl⟩))
    | cons op rest =>
      simp only [hpending] at h
      exact .inr (.inr (.inr ⟨hrunning, op, rest, rfl, h⟩))

/-- The engine's step: fetch of the opcode at `pc`, an effect of one of the shapes, the end-of-memory check. -/
theorem engineNext_spec {s : State} (h : s.active = true) :
    ∃ (b1 b2 b3 : Byte) (imm : Word) (new : List Diag) (u : State),
      (fetchInstr Config.immFetch s).1 = decodeFields (s.mem.read s.pc.toNat) b1 b2 b3 imm ∧
      EffectShape
        { s with
          pc := s.pc + BitVec.ofNat 32 (specLength (s.mem.read s.pc.toNat))
          diag := s.diag ++ new }
        (decodeFields (s.mem.read s.pc.toNat) b1 b2 b3 imm) u ∧
      engineNext s = { u with running := u.running && decide (u.pc.toNat < Config.capacity) } := by
  obtain ⟨b1, b2, b3, imm, new, hfetch⟩ := fetchInstr_spec ((active_iff s).mp h).2
  refine ⟨b1, b2, b3, imm, new, _, congrArg Prod.fst hfetch, effectUnder_shape _ _, ?_⟩
  rw [engineNext, engineStepUnder, endCheck_eq, hfetch]

/-- The length of an instruction fetched below the end of memory is added without a wrap. -/
theorem toNat_add_specLength {pc : Word} (h : pc.toNat < Config.capacity) (op : Byte) :
    (pc + BitVec.ofNat 32 (specLength op)).toNat = pc.toNat + specLength op := by
  have hlength := specLength_bounds op
  rw [capacity_eq] at h
  rw [BitVec.toNat_add, BitVec.toNat_ofNat]
  omega

theorem engineNext_pc {s : State} (h : s.active = true) :
    (engineNext s).pc.toNat = s.pc.toNat + specLength (s.mem.read s.pc.toNat) := by
  obtain ⟨b1, b2, b3, imm, new, u, -, hshape, hstep⟩ := engineNext_spec h
  have hpc : u.pc = s.pc + BitVec.ofNat 32 (specLength (s.mem.read s.pc.toNat)) := hshape.pc_eq
  rw [hstep, ← toNat_add_specLength ((active_iff s).mp h).2, ← hpc]

/-- An active step leaves `pc` further on and at most at 4101 (R27). -/
theorem engineNext_pc_bounds {s : State} (h : s.active = true) :
    s.pc.toNat < (engineNext s).pc.toNat ∧ (engineNext s).pc.toNat ≤ 4101 := by
  have hlength := specLength_bounds (s.mem.read s.pc.toNat)
  have hpc := ((active_iff s).mp h).2
  rw [capacity_eq] at hpc
  rw [engineNext_pc h]
  omega

/-- Of the host's transactions only `reset()` writes `pc`. -/
theorem hostTransact_pc {op : HostOp} {s t : State} (h : hostTransact op s = .next t) :
    t.pc = s.pc ∨ (op = .reset ∧ t.pc = 0#32) := by
  cases op with
  | reset =>
    cases h
    exact .inr ⟨rfl, rfl⟩
  | loadProgram data size =>
    simp only [hostTransact, hostLoadProgram] at h
    split at h <;> cases h
    exact .inl rfl
  | run =>
    cases h
    exact .inl (by rw [enterRun_eq])
  | printState | persistState =>
    cases h
    exact .inl rfl

/-! ### The invariant -/

/-- An active step keeps the invariant; the effect itself runs with `pc` possibly past the end of memory, and only the
check after it restores the clause on `running`. -/
theorem engineNext_inv {s : State} (hs : s.Inv) (h : s.active = true) : (engineNext s).Inv := by
  have hpc := (engineNext_pc_bounds h).2
  obtain ⟨b1, b2, b3, imm, new, u, -, hshape, hstep⟩ := engineNext_spec h
  rw [hstep] at hpc ⊢
  exact
    { mem := hshape.mem_wf hs.mem
      stack := hshape.stack_wf hs.stack
      slot0 := (hshape.slot0_eq hs.stack).trans hs.slot0
      pc := hpc
      running := fun hrun => of_decide_eq_true (Bool.and_eq_true_iff.mp hrun).2 }

/-- A state that stops keeps the invariant. -/
theorem inv_setRunning_false {s : State} (hs : s.Inv) : (s.setRunning false).Inv where
  mem := hs.mem
  stack := hs.stack
  slot0 := hs.slot0
  pc := hs.pc
  running := nofun

theorem reset_inv : State.reset.Inv where
  mem := cellsWf_nil _
  stack := cellsWf_nil _
  slot0 := rfl
  pc := Nat.zero_le _
  running := nofun

/-- `reset()` brings the invariant about from any state: every image of a backing file is canonical. -/
theorem hostReset_inv (s : State) : (hostReset s).Inv where
  mem := restoreImage_wf s.backing
  stack := cellsWf_nil _
  slot0 := rfl
  pc := Nat.zero_le _
  running := nofun

theorem hostLoadProgram_inv {data : List Byte} {size : Nat} {s t : State} (hs : s.Inv)
    (h : hostLoadProgram data size s = .next t) : t.Inv := by
  simp only [hostLoadProgram] at h
  split at h <;> cases h
  have hfits : 0 + (data.take (min size Config.capacity)).length ≤ Config.capacity := by
    rw [List.length_take]
    omega
  exact { hs with mem := Memory.writeBytes_wf hs.mem _ hfits }

theorem enterRun_inv {s : State} (hs : s.Inv) : (enterRun s).Inv := by
  rw [enterRun_eq]
  exact { hs with running := of_decide_eq_true }

theorem hostTransact_inv {op : HostOp} {s t : State} (hs : s.Inv) (h : hostTransact op s = .next t) : t.Inv := by
  cases op with
  | reset =>
    cases h
    exact hostReset_inv s
  | loadProgram data size => exact hostLoadProgram_inv hs h
  | run =>
    cases h
    exact enterRun_inv hs
  | printState | persistState =>
    cases h
    exact { hs with }

/-- Settles O42, by the four cases of a step. -/
theorem stepKeepsInvariant : Obligations.StepKeepsInvariant := by
  intro s t hs hstep
  obtain ⟨hactive, rfl⟩ | ⟨-, -, rfl⟩ | ⟨-, -, rfl⟩ | ⟨-, op, rest, -, hop⟩ := step_cases hstep
  · exact engineNext_inv hs hactive
  · exact inv_setRunning_false hs
  · exact hs
  · exact hostTransact_inv (s := { s with pending := rest }) { hs with } hop

/-- Settles O9: the fetch alone moves `pc` in an active step, and no effect has a shape that writes it. -/
theorem pcAdvancesByLength : Obligations.PcAdvancesByLength := by
  refine ⟨fun s h => ⟨_, step_engineNext h, engineNext_pc h⟩, fun i s t h => (exec_shape h).pc_eq, fun s t h => ?_⟩
  obtain ⟨hactive, -⟩ | ⟨-, -, rfl⟩ | ⟨-, -, rfl⟩ | ⟨-, op, rest, hpending, hop⟩ := step_cases h
  · exact .inr (.inl hactive)
  · exact .inl rfl
  · exact .inl rfl
  · obtain hpc | ⟨rfl, hpc⟩ := hostTransact_pc hop
    · exact .inl hpc
    · exact .inr (.inr ⟨rest, hpending, hpc⟩)

/-! ### What the instructions leave alone -/

/-- The instructions with a destination register are those R21 names. -/
theorem of_destination_eq_some {i : Instr} {d : Byte} (h : destination i = some d) :
    (∃ v, i = .load d v) ∨ (∃ a b, i = .add d a b) ∨ (∃ a b, i = .sub d a b) ∨ (∃ a b, i = .mul d a b) ∨
      (∃ a b, i = .div d a b) ∨ i = .pop d := by
  cases i <;> simp_all [destination]

/-- Settles O38: in every shape of an effect a changed register is the destination. -/
theorem onlyNamedRegisterChanges : Obligations.OnlyNamedRegisterChanges := by
  intro i s t j h hj
  obtain ⟨d, hd, hdest⟩ := (exec_shape h).destination_of_regs_ne hj
  exact ⟨d, hd, of_destination_eq_some hdest⟩

/-- Settles O39: no shape but those of PUSH and POP touches the stack. -/
theorem onlyPushPopTouchStack : Obligations.OnlyPushPopTouchStack :=
  fun _ _ _ h => ⟨(exec_shape h).stack_eq, (exec_shape h).sp_eq⟩

/-- Settles O40, field by field over the shapes of an effect. -/
theorem onlyNamedInstructionsReachOutside : Obligations.OnlyNamedInstructionsReachOutside := by
  intro i s t h
  have hshape := exec_shape h
  refine ⟨fun hstore hload hcode => hshape.mem_eq ?_, fun hprint hcode => hshape.out_eq ?_,
    fun hhalt hunknown => hshape.running_eq ?_, hshape.backing_eq, hshape.pending_eq⟩
  · rintro (⟨r, a, rfl⟩ | rfl | rfl)
    · exact hstore r a rfl
    · exact hload rfl
    · exact hcode rfl
  · rintro (rfl | rfl)
    · exact hprint rfl
    · exact hcode rfl
  · rintro (rfl | ⟨op, rfl⟩)
    · exact hhalt rfl
    · exact hunknown op rfl

/-! ### The register ports and the state after reset -/

/-- Settles O14, from the equation of the write port. -/
theorem registerWritePort : Obligations.RegisterWritePort := by
  intro i v s
  refine ⟨fun h => ?_, fun h => ?_⟩
  · simp [regWrite_eq, h]
  · simp [regWrite_eq, Nat.not_lt.mpr h]

/-- Settles O15, from the equation of the read port. -/
theorem registerReadPort : Obligations.RegisterReadPort := by
  intro i s
  refine ⟨fun h => ?_, fun h => ?_⟩
  · simp [regRead_eq, State.regValue, h]
  · simp [regRead_eq, State.regValue, Nat.not_lt.mpr h]

/-- Settles O43. -/
theorem resetMeetsInvariant : Obligations.ResetMeetsInvariant := reset_inv

/-- Settles O46: an empty list of cells reads as 0 everywhere. -/
theorem resetValues : Obligations.ResetValues :=
  ⟨fun _ => Vector.getElem_replicate _, rfl, rfl, rfl, cellRead_nil, cellRead_nil⟩

end Sys2Proof.Machine
end

section
/-! PROOFS. A whole run: the last step of a run and its stop cause (40_execution_loop.md, R110). -/

namespace Sys2Proof.Machine

/-! ### The host's run, unrolled at its end -/

/-- A run of `k` steps followed by one more step is a run of `k + 1` steps. -/
theorem core_run_snoc {k : Nat} {s u t : State} (hrun : Sys2Proof.core.run k s = .next u) (hstep : step u = .next t) :
    Sys2Proof.core.run (k + 1) s = .next t := by
  induction k generalizing s with
  | zero =>
    cases hrun
    exact core_run_succ hstep 0
  | succ k ih =>
    cases hs : step s with
    | next s' =>
      rw [core_run_succ hs] at hrun ⊢
      exact ih hrun
    | fault r => exact nomatch r
    | refused r =>
      have hrefused : Sys2Proof.core.run (k + 1) s = .refused r := by
        simp only [Host.Core.run, show Sys2Proof.core.step s = .refused r from hs]
      rw [hrefused] at hrun
      cases hrun

/-! ### The stop cause of a step -/

theorem decodeService_not_stopsRun (code : Byte) : ¬ StopsRun (decodeService code) := by
  obtain ⟨-, hi⟩ | ⟨-, hi⟩ | ⟨-, -, hi⟩ := decodeService_cases code <;> simp [StopsRun, hi]

/-- What the opcode byte alone says of the decoded instruction: HALT, UNKNOWN, or one that does not end the run. -/
theorem decodeFields_cases (op b1 b2 b3 : Byte) (imm : Word) :
    (op = 0x01#8 ∧ decodeFields op b1 b2 b3 imm = .halt) ∨
    (op ∉ definedOpcodes ∧ decodeFields op b1 b2 b3 imm = .unknown op) ∨
    (op ≠ 0x01#8 ∧ op ∈ definedOpcodes ∧ ¬ StopsRun (decodeFields op b1 b2 b3 imm)) := by
  by_cases hop : op ∈ definedOpcodes
  · by_cases hhalt : op = 0x01#8
    · exact .inl ⟨hhalt, by rw [hhalt]; rfl⟩
    · refine .inr (.inr ⟨hhalt, hop, ?_⟩)
      simp only [definedOpcodes, List.mem_cons, List.not_mem_nil, or_false, hhalt, false_or] at hop
      rcases hop with rfl | rfl | rfl | rfl | rfl | rfl | rfl | rfl | rfl
      iterate 8 · simp [StopsRun, decodeFields]
      · exact decodeService_not_stopsRun b1
  · exact .inr (.inl ⟨hop, (undefined_opcode hop).2.2 b1 b2 b3 imm⟩)

theorem stopCauseOf_of_not_stopsRun {i : Instr} (hi : ¬ StopsRun i) (t : State) :
    stopCauseOf i t = if Config.capacity ≤ t.pc.toNat then some .pcEnd else none := by
  unfold stopCauseOf
  split
  · exact absurd (.inl rfl) hi
  · exact absurd (.inr ⟨_, rfl⟩) hi
  · rfl

/-! ### Steps within a run -/

/-- The stop cause that the state before the last step decides (R110, D20, D11). -/
def causeAt (u : State) : StopCause :=
  if Config.capacity ≤ u.pc.toNat then .pcEnd
  else if u.mem.read u.pc.toNat = 0x01#8 then .halt
  else if u.mem.read u.pc.toNat ∉ definedOpcodes then .unknownOpcode
  else .pcEnd

/-- The last step of a run, from `u` to `t`, with the stop cause `c`. -/
structure LastStep (u t : State) (c : StopCause) : Prop where
  /-- The run is still in progress before the step. -/
  running : u.running = true
  /-- The step is the machine's. -/
  next : step u = .next t
  /-- The run is over after the step. -/
  stopped : t.running = false
  /-- The cause is the one `u` decides. -/
  cause : c = causeAt u
  /-- HALT stands in the byte before `pc`. -/
  halt : c = .halt → t.pc.toNat = u.pc.toNat + 1 ∧ t.mem.read (t.pc.toNat - 1) = 0x01#8
  /-- An unknown opcode stands in the byte before `pc`, and the step logs it. -/
  unknownOpcode : c = .unknownOpcode →
    t.pc.toNat = u.pc.toNat + 1 ∧ t.mem.read (t.pc.toNat - 1) ∉ definedOpcodes ∧ Emitted .unknownOpcode u t
  /-- The end of memory bounds `pc` from below, and R27 from above. -/
  pcEnd : c = .pcEnd → Config.capacity ≤ t.pc.toNat ∧ (u.pc.toNat ≤ 4101 → t.pc.toNat ≤ 4101)

/-- With nothing to fetch the step out of the loop is the last one. -/
theorem lastStep_exit {u : State} (hrun : u.running = true) (hpc : Config.capacity ≤ u.pc.toNat) :
    LastStep u (u.setRunning false) .pcEnd where
  running := hrun
  next := step_exit hrun hpc
  stopped := rfl
  cause := by rw [causeAt, if_pos hpc]
  halt := nofun
  unknownOpcode := nofun
  pcEnd := fun _ => ⟨hpc, id⟩

theorem lastStep_halt {u : State} (h : u.active = true) (hop : u.mem.read u.pc.toNat = 0x01#8) :
    LastStep u (engineNext u) .halt := by
  have hcapacity := ((active_iff u).mp h).2
  have hpc := engineNext_pc h
  obtain ⟨b1, b2, b3, imm, new, hfetch⟩ := fetchInstr_spec hcapacity
  have ht : engineNext u =
      { u with pc := u.pc + 1#32, running := false, diag := u.diag ++ new } := by
    rw [engineNext, engineStepUnder, endCheck_eq, hfetch, hop]
    rfl
  rw [hop] at hpc
  refine
    { running := ((active_iff u).mp h).1
      next := step_engineNext h
      stopped := by rw [ht]
      cause := by rw [causeAt, if_neg (Nat.not_le.mpr hcapacity), if_pos hop]
      halt := fun _ => ⟨hpc, ?_⟩
      unknownOpcode := nofun
      pcEnd := nofun }
  rw [hpc, ht]
  exact hop

theorem lastStep_unknownOpcode {u : State} (h : u.active = true) (hop : u.mem.read u.pc.toNat ∉ definedOpcodes) :
    LastStep u (engineNext u) .unknownOpcode := by
  have hcapacity := ((active_iff u).mp h).2
  have hpc := engineNext_pc h
  obtain ⟨b1, b2, b3, imm, new, hfetch⟩ := fetchInstr_spec hcapacity
  obtain ⟨-, hlength, hdecode⟩ := undefined_opcode hop
  have ht : engineNext u =
      { u with pc := u.pc + 1#32, running := false, diag := u.diag ++ new ++ [.unknownOpcode] } := by
    rw [engineNext, engineStepUnder, endCheck_eq, hfetch, hdecode, hlength]
    rfl
  rw [hlength] at hpc
  refine
    { running := ((active_iff u).mp h).1
      next := step_engineNext h
      stopped := by rw [ht]
      cause := ?_
      halt := nofun
      unknownOpcode := fun _ => ⟨hpc, ?_, new ++ [.unknownOpcode], ?_, by simp⟩
      pcEnd := nofun }
  · have hne : u.mem.read u.pc.toNat ≠ 0x01#8 := fun heq => hop (heq ▸ by decide)
    rw [causeAt, if_neg (Nat.not_le.mpr hcapacity), if_neg hne, if_pos hop]
  · rw [hpc, ht]
    exact hop
  · rw [ht, List.append_assoc]

/-- A step that carries `pc` to the end of memory is the last one. -/
theorem lastStep_pcEnd {u : State} (h : u.active = true) (hne : u.mem.read u.pc.toNat ≠ 0x01#8)
    (hop : u.mem.read u.pc.toNat ∈ definedOpcodes)
    (hend : Config.capacity ≤ (engineNext u).pc.toNat) :
    LastStep u (engineNext u) .pcEnd where
  running := ((active_iff u).mp h).1
  next := step_engineNext h
  stopped := by
    rw [engineNext, engineStepUnder, endCheck_eq] at hend ⊢
    simp [Nat.not_lt.mpr hend]
  cause := by
    rw [causeAt, if_neg (Nat.not_le.mpr ((active_iff u).mp h).2), if_neg hne, if_neg (not_not_intro hop)]
  halt := nofun
  unknownOpcode := nofun
  pcEnd := fun _ => ⟨hend, fun _ => (engineNext_pc_bounds h).2⟩

/-- An active step either is the run's last one, with the stop cause the loop reports, or leaves the loop active. -/
theorem lastStep_or_active {u : State} (h : u.active = true) :
    (∃ c, stopCauseOf (fetchInstr Config.immFetch u).1 (engineNext u) = some c ∧
      LastStep u (engineNext u) c) ∨
    (stopCauseOf (fetchInstr Config.immFetch u).1 (engineNext u) = none ∧
      (engineNext u).active = true) := by
  obtain ⟨b1, b2, b3, imm, new, v, hinstr, hshape, hstep⟩ := engineNext_spec h
  rw [hinstr]
  obtain ⟨hop, hi⟩ | ⟨hop, hi⟩ | ⟨hne, hop, hi⟩ := decodeFields_cases (u.mem.read u.pc.toNat) b1 b2 b3 imm
  · exact .inl ⟨.halt, by rw [hi]; rfl, lastStep_halt h hop⟩
  · exact .inl ⟨.unknownOpcode, by rw [hi]; rfl, lastStep_unknownOpcode h hop⟩
  · rw [stopCauseOf_of_not_stopsRun hi]
    by_cases hend : Config.capacity ≤ (engineNext u).pc.toNat
    · exact .inl ⟨.pcEnd, if_pos hend, lastStep_pcEnd h hne hop hend⟩
    · have hrunning : v.running = true := (hshape.running_eq hi).trans ((active_iff u).mp h).1
      refine .inr ⟨if_neg hend, (active_iff _).mpr ⟨?_, Nat.lt_of_not_le hend⟩⟩
      rw [hstep] at hend ⊢
      simp [hrunning, Nat.lt_of_not_le hend]

/-- An active step only appends to `DIAG`. -/
theorem engineNext_diag_prefix {s : State} (h : s.active = true) :
    s.diag <+: (engineNext s).diag := by
  obtain ⟨b1, b2, b3, imm, new, u, -, hshape, hstep⟩ := engineNext_spec h
  rw [hstep]
  exact (List.prefix_append _ new).trans hshape.diag_prefix

/-! ### The run -/

theorem runLoop_succ_last {s : State} (h : s.active = true) {c : StopCause}
    (hc : stopCauseOf (fetchInstr Config.immFetch s).1 (engineNext s) = some c) (fuel : Nat) :
    runLoop (fuel + 1) s = (engineNext s, some c) := by
  rw [engineNext] at hc ⊢
  simp only [runLoop, h, hc, if_true]

theorem runLoop_succ_active {s : State} (h : s.active = true)
    (hnone : stopCauseOf (fetchInstr Config.immFetch s).1 (engineNext s) = none) (fuel : Nat) :
    runLoop (fuel + 1) s = runLoop fuel (engineNext s) := by
  rw [engineNext] at hnone ⊢
  simp only [runLoop, h, hnone, if_true]

theorem runLoop_succ_exit {s : State} (h : ¬ s.active = true) (fuel : Nat) :
    runLoop (fuel + 1) s = (s.setRunning false, some .pcEnd) := by
  simp only [runLoop, if_neg h]

/-- With as much fuel as there are bytes from `pc` to the end of memory the loop reaches its last step: `pc` grows in every
step, so the fuel always covers the bytes left. -/
theorem runLoop_lastStep {fuel : Nat} {s : State} (hrun : s.running = true) (hpos : 1 ≤ fuel)
    (hfuel : Config.capacity ≤ s.pc.toNat + fuel) :
    ∃ (k : Nat) (u t : State) (c : StopCause),
      runLoop fuel s = (t, some c) ∧ k + 1 ≤ fuel ∧ Sys2Proof.core.run k s = .next u ∧ s.diag <+: u.diag ∧
      (s.pc.toNat ≤ 4101 → u.pc.toNat ≤ 4101) ∧ LastStep u t c := by
  induction fuel generalizing s with
  | zero => exact absurd hpos (by decide)
  | succ fuel ih =>
    by_cases h : s.active = true
    · have hbounds := engineNext_pc_bounds h
      obtain ⟨c, hc, hlast⟩ | ⟨hnone, hactive⟩ := lastStep_or_active h
      · exact ⟨0, s, _, c, runLoop_succ_last h hc fuel, by omega, rfl, List.prefix_rfl, id, hlast⟩
      · obtain ⟨hrunning, hpc⟩ := (active_iff _).mp hactive
        obtain ⟨k, u, t, c, hloop, hk, hcore, hdiag, hle, hlast⟩ := ih hrunning (by omega) (by omega)
        exact ⟨k + 1, u, t, c, (runLoop_succ_active h hnone fuel).trans hloop, by omega,
          (core_run_succ (step_engineNext h) k).trans hcore, (engineNext_diag_prefix h).trans hdiag,
          fun _ => hle hbounds.2, hlast⟩
    · have hpc : Config.capacity ≤ s.pc.toNat := by simpa [active_iff, hrun] using h
      exact ⟨0, s, s.setRunning false, .pcEnd, runLoop_succ_exit h fuel, by omega, rfl, List.prefix_rfl, id,
        lastStep_exit hrun hpc⟩

/-- An event of the last step is an event of the run. -/
theorem Emitted.of_prefix {k : Diag} {s u t : State} (hdiag : s.diag <+: u.diag) (h : Emitted k u t) :
    Emitted k s t := by
  obtain ⟨before, hbefore⟩ := hdiag
  obtain ⟨new, ht, hk⟩ := h
  exact ⟨before ++ new, by rw [ht, ← hbefore, List.append_assoc], List.mem_append_right before hk⟩

/-- Settles O12: the loop with 4096 units of fuel reaches a last step, and that step decides the cause. -/
theorem runHasStopCause : Obligations.RunHasStopCause := by
  intro s
  obtain ⟨k, u, t, c, hloop, hk, hcore, hdiag, hle, hlast⟩ :=
    runLoop_lastStep (fuel := Config.capacity) (s := s.setRunning true) rfl (by decide) (Nat.le_add_left _ _)
  refine ⟨k, u, t, c, hloop, hk, hcore, hlast.running, hlast.next, core_run_snoc hcore hlast.next, hlast.stopped,
    hlast.cause, hlast.halt, fun hc => ?_, fun hc => ?_⟩
  · obtain ⟨hpc, hop, hemitted⟩ := hlast.unknownOpcode hc
    exact ⟨hpc, hop, .of_prefix hdiag hemitted⟩
  · exact (hlast.pcEnd hc).imp_right fun hbound hs => hbound (hle hs)

end Sys2Proof.Machine
end

section
/-! PROOFS. The memory-access unit (20_memory.md): byte and word access, the fetch of an instruction whose bytes memory
holds, and the stored instruction that is executed next (R64). -/

namespace Sys2Proof.Machine

/-! ### Byte and word access -/

/-- Settles O16, from the equations of the two byte operations and read after write. -/
theorem byteAccess : Obligations.ByteAccess := by
  intro addr b s hmem
  refine ⟨fun h => ⟨?_, _, rfl, ?_, fun k => ?_⟩, fun h => ⟨?_, ?_⟩⟩
  · simp [memRead8_eq, capacity_eq, h]
  · simp [memWrite8_eq, capacity_eq, h]
  · simp [memWrite8_eq, capacity_eq, h, Memory.read_write hmem]
  · simp [memRead8_eq, capacity_eq, Nat.not_lt.mpr h]
  · simp [memWrite8_eq, capacity_eq, Nat.not_lt.mpr h]

/-- What a word write in range leaves at every address (R53). -/
theorem memWrite32_read {s : State} (h : s.mem.wf) (v : Word) {a : Nat} (ha : a + 3 < Config.capacity) (k : Nat) :
    (memWrite32 a v s).mem.read k = if a ≤ k ∧ k < a + 4 then (beBytes v).getD (k - a) 0#8 else s.mem.read k := by
  rw [memWrite32_eq, if_pos ha]
  exact Memory.read_writeBytes h (beBytes v) ha k

/-- Settles O17: a word write is the write of its four bytes, and a word is assembled from its own bytes. -/
theorem wordAccess : Obligations.WordAccess := by
  intro addr v s hmem
  refine ⟨fun h => ?_, fun h => ?_⟩
  · have hin : addr + 3 < Config.capacity := by rw [capacity_eq]; omega
    have hread := memWrite32_read hmem v hin
    have h0 : (memWrite32 addr v s).mem.read addr = beByte v 0 := by simp [hread, beBytes]
    have h1 : (memWrite32 addr v s).mem.read (addr + 1) = beByte v 1 := by simp [hread, beBytes]
    have h2 : (memWrite32 addr v s).mem.read (addr + 2) = beByte v 2 := by simp [hread, beBytes]
    have h3 : (memWrite32 addr v s).mem.read (addr + 3) = beByte v 3 := by simp [hread, beBytes]
    refine ⟨by simp [memRead32_eq, hin], _, rfl, by simp [memWrite32_eq, hin], ?_, h0, h1, h2, h3, fun k hk => ?_⟩
    · rw [memRead32_eq, if_pos hin, h0, h1, h2, h3, be32_beByte]
    · rw [hread, if_neg (by omega)]
  · have hout : ¬ addr + 3 < Config.capacity := by rw [capacity_eq]; omega
    exact ⟨by simp [memRead32_eq, hout], by simp [memWrite32_eq, hout]⟩

/-! ### Fetching bytes that memory holds -/

@[simp] theorem State.setPc_setPc (s : State) (t u : Word) : (s.setPc t).setPc u = s.setPc u := rfl

/-- A `pc` that moves to the end of memory at most does not wrap. -/
theorem toNat_add_of_le_capacity {pc : Word} {n : Nat} (h : pc.toNat + n ≤ Config.capacity) :
    (pc + BitVec.ofNat 32 n).toNat = pc.toNat + n := by
  rw [capacity_eq] at h
  rw [BitVec.toNat_add, BitVec.toNat_ofNat]
  omega

theorem holdsBytes_cons {s : State} {a : Nat} {b : Byte} {bs : List Byte} :
    s.holdsBytes a (b :: bs) ↔ (a < Config.capacity ∧ s.mem.read a = b) ∧ s.holdsBytes (a + 1) bs := by
  simp only [State.holdsBytes, List.length_cons]
  constructor
  · rintro ⟨hfits, hread⟩
    refine ⟨⟨by omega, hread 0 (by omega)⟩, by omega, fun k hk => ?_⟩
    rw [Nat.add_assoc, Nat.add_comm 1 k]
    exact hread (k + 1) (by omega)
  · rintro ⟨⟨-, hb⟩, hfits, hread⟩
    refine ⟨by omega, fun k hk => ?_⟩
    cases k with
    | zero => exact hb
    | succ k =>
      rw [Nat.add_comm k 1, ← Nat.add_assoc, Nat.add_comm 1 k]
      exact hread k (by omega)

/-- Bytes written in range are held. -/
theorem holdsBytes_writeBytes {s : State} (h : s.mem.wf) {a : Nat} {bs : List Byte}
    (ha : a + bs.length ≤ Config.capacity) : { s with mem := s.mem.writeBytes a bs }.holdsBytes a bs := by
  refine ⟨ha, fun k hk => ?_⟩
  rw [Memory.read_writeBytes h bs ha, if_pos (by omega), Nat.add_sub_cancel_left]

/-- The fetch of a held byte answers it and leaves `pc` at the bytes that follow (R102). -/
theorem fetch8_of_holdsBytes {s : State} {b : Byte} {bs : List Byte} (h : s.holdsBytes s.pc.toNat (b :: bs)) :
    fetch8 s = (b, s.setPc (s.pc + 1#32)) ∧ (s.setPc (s.pc + 1#32)).holdsBytes (s.pc + 1#32).toNat bs := by
  obtain ⟨⟨hpc, hb⟩, hrest⟩ := holdsBytes_cons.mp h
  rw [toNat_add_of_le_capacity (n := 1) hpc]
  exact ⟨by simp [fetch8_eq, hpc, hb, State.setPc], hrest⟩

/-- The fetch of a held 4-byte operand assembles it, under either value of `IMM_FETCH` (R103). -/
theorem fetch32_of_holdsBytes (f : ImmFetch) {s : State} {b0 b1 b2 b3 : Byte} {bs : List Byte}
    (h : s.holdsBytes s.pc.toNat (b0 :: b1 :: b2 :: b3 :: bs)) :
    fetch32 f s = (be32 b0 b1 b2 b3, s.setPc (s.pc + 4#32)) := by
  simp only [holdsBytes_cons, Nat.add_assoc, Nat.reduceAdd] at h
  obtain ⟨⟨-, h0⟩, ⟨-, h1⟩, ⟨-, h2⟩, ⟨hpc, h3⟩, -⟩ := h
  rw [fetch32_in_range f hpc, fetch32_word_eq, if_pos hpc, if_pos hpc, h0, h1, h2, h3, List.append_nil]
  rfl

/-- The fetch of bytes that decode is the decoded instruction, with `pc` moved past it and nothing logged (R101). -/
theorem fetchInstr_of_decode (f : ImmFetch) {s : State} {bs rest : List Byte} {i : Instr}
    (hbytes : s.holdsBytes s.pc.toNat bs) (hdecode : decode bs = .ok (i, rest)) :
    fetchInstr f s = (i, s.setPc (s.pc + BitVec.ofNat 32 i.length)) := by
  cases bs with
  | nil => cases hdecode
  | cons op operands =>
    obtain ⟨hop, hoperands⟩ := fetch8_of_holdsBytes hbytes
    have hlength : ∀ b1 b2 b3 imm, (decodeFields op b1 b2 b3 imm).length = formatLength (formatOf op) :=
      fun b1 b2 b3 imm => by rw [decodeFields_length, formatLength_formatOf]
    simp only [decode] at hdecode
    simp only [fetchInstr, hop]
    -- One case for each format of R81, in its order; the case of too few bytes closes at once.
    split at hdecode <;> cases hdecode
    case h_1 hformat => simp only [hformat, hlength, formatLength]
    case h_2 hformat | h_3 hformat =>
      obtain ⟨hb1, -⟩ := fetch8_of_holdsBytes hoperands
      simp only [hformat, hb1, hlength, formatLength]
      simp [BitVec.add_assoc]
    case h_4 hformat =>
      obtain ⟨hb1, hrest1⟩ := fetch8_of_holdsBytes hoperands
      obtain ⟨hb2, hrest2⟩ := fetch8_of_holdsBytes hrest1
      obtain ⟨hb3, -⟩ := fetch8_of_holdsBytes hrest2
      simp only [hformat, hb1, hb2, hb3, hlength, formatLength]
      simp [BitVec.add_assoc]
    case h_5 hformat =>
      obtain ⟨hb1, hrest1⟩ := fetch8_of_holdsBytes hoperands
      have himm := fetch32_of_holdsBytes f hrest1
      simp only [hformat, hb1, himm, hlength, formatLength]
      simp [BitVec.add_assoc]

/-- While the loop is active, a step over bytes that decode performs the decoded instruction (R101). -/
theorem step_of_decode {s : State} {bs rest : List Byte} {i : Instr} (hactive : s.active = true)
    (hbytes : s.holdsBytes s.pc.toNat bs) (hdecode : decode bs = .ok (i, rest)) :
    step s = onNext endCheck (exec i (s.setPc (s.pc + BitVec.ofNat 32 i.length))) := by
  rw [step_active hactive, engineStepUnder, fetchInstr_of_decode _ hbytes hdecode, exec_eq]
  rfl

/-! ### The stored instruction -/

theorem decode_encode_store (r : Byte) (a : Word) : decode (encode (.store r a)) = .ok (.store r a, []) := by
  have hbytes : decode (encode (.store r a)) =
      .ok (.store r (be32 (beByte a 0) (beByte a 1) (beByte a 2) (beByte a 3)), []) := rfl
  rw [hbytes, be32_beByte]

/-- STORE of a valid register to an address in range writes its four bytes and does nothing else (R121). -/
theorem exec_store_in_range {r : Byte} {a : Word} {s : State} (hr : r.toNat < 8) (ha : a.toNat + 3 < Config.capacity) :
    exec (.store r a) s = .next { s with mem := s.mem.writeBytes a.toNat (beBytes s.regs[r.toNat]) } := by
  have hvalue : s.regValue r = s.regs[r.toNat] := dif_pos hr
  simp [exec_eq, effectUnder, badRegPolicy_eq, storeUnder_eq, hr, ha, hvalue]

/-- Below the end of memory the end-of-memory check changes nothing (R105). -/
theorem endCheck_of_lt {s : State} (h : s.pc.toNat < Config.capacity) : endCheck s = s := if_neg (Nat.not_le.mpr h)

/-- The state after a step that stores register `r` at the address right after the STORE itself. -/
def storedAfter (r : Fin 8) (s : State) : State :=
  { s.setPc (s.pc + 6#32) with mem := s.mem.writeBytes (s.pc + 6#32).toNat (beBytes s.regs[r]) }

/-- Settles O22: the STORE leaves the register's four bytes right at the new `pc`, where the next step decodes them. -/
theorem storedBytesAreFetched : Obligations.StoredBytesAreFetched := by
  intro r s hr i rest hactive hmem hpc hbytes hdecode
  have hnext : (s.pc + 6#32).toNat = s.pc.toNat + 6 := toNat_add_of_le_capacity (n := 6) (by omega)
  have hfits : (s.pc + 6#32).toNat + (beBytes s.regs[r.toNat]).length ≤ Config.capacity := hnext ▸ hpc
  have hlow : (s.pc + 6#32).toNat < Config.capacity := by omega
  have hstep : step s = .next (storedAfter ⟨r.toNat, hr⟩ s) := by
    rw [step_of_decode hactive hbytes (decode_encode_store r _)]
    have hexec := exec_store_in_range (s := s.setPc (s.pc + 6#32)) (a := s.pc + 6#32) hr hfits
    exact (congrArg (onNext endCheck) hexec).trans (congrArg _ (endCheck_of_lt hlow))
  have hactive' : (storedAfter ⟨r.toNat, hr⟩ s).active = true :=
    (active_iff _).mpr ⟨((active_iff s).mp hactive).1, hlow⟩
  have hheld : (storedAfter ⟨r.toNat, hr⟩ s).holdsBytes (s.pc + 6#32).toNat (beBytes s.regs[r.toNat]) :=
    holdsBytes_writeBytes (s := s.setPc (s.pc + 6#32)) hmem hfits
  exact ⟨_, hstep, rfl, rfl, hactive', step_of_decode hactive' hheld hdecode⟩

end Sys2Proof.Machine
end

section
/-! PROOFS. The encoding (30_encoding.md): the round trip of decoder and encoder in both directions, the length that the
opcode fixes (R82), the unknown opcodes (R86), and what the fetch reads at the end of memory (R91). -/

namespace Sys2Proof.Machine

/-! ### From the instruction to its bytes and back -/

theorem unknown_wf_iff (op : Byte) : (Instr.unknown op).wf = true ↔ op ∉ definedOpcodes := by
  simp [Instr.wf]

/-- Settles O1, row by row of the opcode map: the 4-byte operand is assembled from its own bytes, the code byte keeps clear of
the two services' codes, and a byte outside the map is UNKNOWN. -/
theorem decodeOfEncode : Obligations.DecodeOfEncode := by
  intro i rest hwf
  cases i with
  | halt | add | sub | mul | div | push | pop | syscallPrintString | syscallLoadData => rfl
  | load r v => exact congrArg (fun w => Except.ok (Instr.load r w, rest)) (be32_beByte v)
  | store r a => exact congrArg (fun w => Except.ok (Instr.store r w, rest)) (be32_beByte a)
  | syscall c =>
    have hbytes : decode (encode (.syscall c) ++ rest) = .ok (decodeService c, rest) := rfl
    obtain ⟨hprint, hload⟩ : c ≠ 0x01#8 ∧ c ≠ 0x02#8 := by simpa [Instr.wf] using hwf
    obtain ⟨h, -⟩ | ⟨h, -⟩ | ⟨-, -, hservice⟩ := decodeService_cases c
    · exact absurd h hprint
    · exact absurd h hload
    · rw [hbytes, hservice]
  | unknown op =>
    obtain ⟨hformat, -, hfields⟩ := undefined_opcode ((unknown_wf_iff op).mp hwf)
    simp only [encode, List.singleton_append, decode, hformat, hfields]

/-- Well-formed instructions with the same bytes are the same. -/
theorem encode_injective_of_wf {i j : Instr} (hi : i.wf = true) (hj : j.wf = true) (h : encode i = encode j) : i = j := by
  have hdecode := decodeOfEncode i [] hi
  rw [h, decodeOfEncode j [] hj] at hdecode
  cases hdecode
  rfl

/-! ### From the bytes to the instruction -/

/-- The operand bytes of a format in encoding order (R81): `b1`, `b2`, `b3` are single bytes, `imm` the 4-byte operand. -/
def operandBytes (f : Format) (b1 b2 b3 : Byte) (imm : Word) : List Byte :=
  match f with
  | .op => []
  | .opR => [b1]
  | .opC => [b1]
  | .opRRR => [b1, b2, b3]
  | .opRI => b1 :: beBytes imm

theorem beBytes_be32 (b0 b1 b2 b3 : Byte) : beBytes (be32 b0 b1 b2 b3) = [b0, b1, b2, b3] := by
  obtain ⟨h0, h1, h2, h3⟩ := beByte_be32 b0 b1 b2 b3
  rw [beBytes, h0, h1, h2, h3]

theorem decodeService_wf (code : Byte) : (decodeService code).wf = true := by
  obtain ⟨-, h⟩ | ⟨-, h⟩ | ⟨h1, h2, h⟩ := decodeService_cases code
  · rw [h]; rfl
  · rw [h]; rfl
  · simp [h, Instr.wf, h1, h2]

theorem encode_decodeService (code : Byte) : encode (decodeService code) = [0xFF#8, code] := by
  obtain ⟨hcode, h⟩ | ⟨hcode, h⟩ | ⟨-, -, h⟩ := decodeService_cases code
  · rw [h, hcode]; rfl
  · rw [h, hcode]; rfl
  · rw [h]; rfl

/-- The opcode map answers a well-formed instruction, whose bytes are the opcode and the operands of its format. -/
theorem decodeFields_spec (op b1 b2 b3 : Byte) (imm : Word) :
    (decodeFields op b1 b2 b3 imm).wf = true ∧
      encode (decodeFields op b1 b2 b3 imm) = op :: operandBytes (formatOf op) b1 b2 b3 imm := by
  by_cases h : op ∈ definedOpcodes
  · simp only [definedOpcodes, List.mem_cons, List.not_mem_nil, or_false] at h
    rcases h with rfl | rfl | rfl | rfl | rfl | rfl | rfl | rfl | rfl | rfl
    iterate 9 · exact ⟨rfl, rfl⟩
    · exact ⟨decodeService_wf b1, encode_decodeService b1⟩
  · obtain ⟨hformat, -, hfields⟩ := undefined_opcode h
    rw [hfields, hformat]
    exact ⟨(unknown_wf_iff op).mpr h, rfl⟩

/-- The opcode map reads only the operands of the opcode's format. -/
theorem decodeFields_congr {op b1 b2 b3 c1 c2 c3 : Byte} {v w : Word}
    (h : operandBytes (formatOf op) b1 b2 b3 v = operandBytes (formatOf op) c1 c2 c3 w) :
    decodeFields op b1 b2 b3 v = decodeFields op c1 c2 c3 w := by
  obtain ⟨hwf, hbytes⟩ := decodeFields_spec op b1 b2 b3 v
  obtain ⟨hwf', hbytes'⟩ := decodeFields_spec op c1 c2 c3 w
  exact encode_injective_of_wf hwf hwf' (by rw [hbytes, hbytes', h])

theorem length_encode (i : Instr) : (encode i).length = i.length := by
  cases i <;> rfl

/-- Decoding from an opcode byte: an instruction of the opcode map and its encoding off the front, or too few bytes. -/
theorem decode_cons (op : Byte) (operands : List Byte) :
    (∃ (b1 b2 b3 : Byte) (imm : Word) (rest : List Byte),
      decode (op :: operands) = .ok (decodeFields op b1 b2 b3 imm, rest) ∧
        op :: operands = encode (decodeFields op b1 b2 b3 imm) ++ rest) ∨
    (operands.length + 1 < specLength op ∧ decode (op :: operands) = .error (.truncated op)) := by
  simp only [(decodeFields_spec _ _ _ _ _).2, ← formatLength_formatOf, decode]
  cases formatOf op with
  | op => exact .inl ⟨0#8, 0#8, 0#8, 0#32, operands, rfl, rfl⟩
  | opR | opC =>
    match operands with
    | [] => exact .inr ⟨by decide, rfl⟩
    | b1 :: rest => exact .inl ⟨b1, 0#8, 0#8, 0#32, rest, rfl, rfl⟩
  | opRRR =>
    match operands with
    | [] | [_] | [_, _] => exact .inr ⟨by simp [formatLength], rfl⟩
    | b1 :: b2 :: b3 :: rest => exact .inl ⟨b1, b2, b3, 0#32, rest, rfl, rfl⟩
  | opRI =>
    match operands with
    | [] | [_] | [_, _] | [_, _, _] | [_, _, _, _] => exact .inr ⟨by simp [formatLength], rfl⟩
    | b1 :: i0 :: i1 :: i2 :: i3 :: rest =>
      exact .inl ⟨b1, 0#8, 0#8, be32 i0 i1 i2 i3, rest, rfl, by simp [operandBytes, beBytes_be32]⟩

/-- Settles O2, from the two outcomes of decoding. -/
theorem encodeOfDecode : Obligations.EncodeOfDecode := by
  intro bs i rest h
  cases bs with
  | nil => cases h
  | cons op operands =>
    obtain ⟨b1, b2, b3, imm, tail, hok, hbytes⟩ | ⟨-, herror⟩ := decode_cons op operands
    · obtain ⟨rfl, rfl⟩ : decodeFields op b1 b2 b3 imm = i ∧ tail = rest := by simpa [hok] using h
      exact ⟨(decodeFields_spec op b1 b2 b3 imm).1, hbytes⟩
    · rw [herror] at h
      cases h

/-- Settles O4: the outcome is the one that the number of bytes allows. -/
theorem lengthFromOpcodeAlone : Obligations.LengthFromOpcodeAlone := by
  intro op operands
  obtain ⟨b1, b2, b3, imm, rest, hok, hbytes⟩ | ⟨hshort, herror⟩ := decode_cons op operands
  · have hlength := congrArg List.length hbytes
    rw [List.length_append, length_encode, decodeFields_length, List.length_cons] at hlength
    exact ⟨fun _ => ⟨_, rest, hok, hlength, decodeFields_length ..⟩, fun h => by omega⟩
  · exact ⟨fun h => by omega, fun _ => herror⟩

/-- Settles O3, by evaluating the decoder on the words of the spec. -/
theorem specWordsDecode : Obligations.SpecWordsDecode := ⟨rfl, rfl, rfl, rfl, rfl, rfl, rfl, rfl⟩

/-- Settles O5, from the round trip in both directions: an UNKNOWN that is decoded is well-formed, so its byte is none of the
ten. -/
theorem unknownOpcodeBytes : Obligations.UnknownOpcodeBytes := by
  refine ⟨rfl, fun op rest => ⟨fun hop => ?_, fun hop o tail hdecode => ?_⟩, fun op s => ?_⟩
  · exact decodeOfEncode (.unknown op) rest ((unknown_wf_iff op).mpr hop)
  · obtain ⟨hwf, hbytes⟩ := encodeOfDecode _ _ _ hdecode
    obtain ⟨rfl, -⟩ := List.cons.inj hbytes
    exact (unknown_wf_iff op).mp hwf hop
  · exact ⟨raiseUnknownOpcode s, rfl, rfl, [.unknownOpcode], rfl, List.mem_singleton_self _⟩

/-! ### The fetch up to and past the end of memory (R91, R102, R103) -/

/-- The byte at distance `k` from `pc`, as a checked read answers it: 0 past the end of memory (R50). -/
def byteAhead (s : State) (k : Nat) : Byte :=
  if s.pc.toNat + k < Config.capacity then s.mem.read (s.pc.toNat + k) else 0#8

/-- The 4-byte operand of the instruction at `pc`, as one checked word read answers it: 0 unless the whole word is in memory
(R52, D5). -/
def immAhead (s : State) : Word :=
  if s.pc.toNat + 5 < Config.capacity then
    be32 (byteAhead s 2) (byteAhead s 3) (byteAhead s 4) (byteAhead s 5) else 0#32

/-- The state after the fetch of `k` bytes that logged `new`. -/
def fetched (s : State) (k : Nat) (new : List Diag) : State :=
  { s with pc := s.pc + BitVec.ofNat 32 k, diag := s.diag ++ new }

/-- A fetch that ended before the address `a` logged only reads out of range, and some exactly if `a` lies past the end. -/
def FetchLog (a : Nat) (new : List Diag) : Prop := (∀ k ∈ new, k = .memReadOor) ∧ (new = [] ↔ a ≤ Config.capacity)

/-- One more checked read, up to the address `b`, keeps the log as it must be. -/
theorem FetchLog.append_read {a b : Nat} {new : List Diag} (h : FetchLog a new) (hab : a ≤ b) :
    FetchLog b (new ++ if b ≤ Config.capacity then [] else [.memReadOor]) := by
  obtain ⟨honly, hempty⟩ := h
  by_cases hb : b ≤ Config.capacity
  · simpa [FetchLog, hb] using ⟨honly, hempty.mpr (by omega)⟩
  · simpa [FetchLog, hb, or_imp, forall_and] using honly

section
variable {s : State} (hpc : s.pc.toNat < Config.capacity)
include hpc

/-- Up to the last byte of an instruction `pc` does not wrap. -/
theorem fetched_pc_toNat {k : Nat} (hk : k ≤ 6) (new : List Diag) : (fetched s k new).pc.toNat = s.pc.toNat + k := by
  rw [capacity_eq] at hpc
  show (s.pc + BitVec.ofNat 32 k).toNat = _
  rw [BitVec.toNat_add, BitVec.toNat_ofNat]
  omega

/-- The fetch of the byte at distance `k`. -/
theorem fetch8_fetched {k : Nat} (hk : k ≤ 5) {new : List Diag} (hlog : FetchLog (s.pc.toNat + k) new) :
    ∃ new', FetchLog (s.pc.toNat + (k + 1)) new' ∧ fetch8 (fetched s k new) = (byteAhead s k, fetched s (k + 1) new') := by
  refine ⟨_, hlog.append_read (b := s.pc.toNat + (k + 1)) (by omega), ?_⟩
  rw [fetch8_eq, fetched_pc_toNat hpc (by omega)]
  simp [fetched, byteAhead, BitVec.add_assoc, BitVec.ofNat_add, ← Nat.add_assoc]

/-- The fetch of the 4-byte operand. -/
theorem fetch32_fetched {new : List Diag} (hlog : FetchLog (s.pc.toNat + 2) new) :
    ∃ new', FetchLog (s.pc.toNat + 6) new' ∧ fetch32 .word (fetched s 2 new) = (immAhead s, fetched s 6 new') := by
  refine ⟨_, hlog.append_read (b := s.pc.toNat + 6) (by omega), ?_⟩
  rw [fetch32_word_eq, fetched_pc_toNat hpc (by omega)]
  by_cases hin : s.pc.toNat + 5 < Config.capacity
  · have h2 : s.pc.toNat + 2 < Config.capacity := by omega
    have h3 : s.pc.toNat + 3 < Config.capacity := by omega
    have h4 : s.pc.toNat + 4 < Config.capacity := by omega
    simp [fetched, immAhead, byteAhead, BitVec.add_assoc, Nat.add_assoc, Nat.succ_le_of_lt hin, hin, h2, h3, h4]
  · have hout : ¬ s.pc.toNat + 6 ≤ Config.capacity := hin
    simp [fetched, immAhead, BitVec.add_assoc, Nat.add_assoc, hin, hout]

/-- The fetch of an instruction: the opcode map applied to what the checked reads answer. -/
theorem fetchInstr_fetched :
    ∃ new, FetchLog (s.pc.toNat + specLength (byteAhead s 0)) new ∧
      fetchInstr .word s =
        (decodeFields (byteAhead s 0) (byteAhead s 1) (byteAhead s 2) (byteAhead s 3) (immAhead s),
          fetched s (specLength (byteAhead s 0)) new) := by
  have hstart : s = fetched s 0 [] := by simp [fetched]
  have hlog0 : FetchLog (s.pc.toNat + 0) [] := ⟨List.forall_mem_nil _, iff_of_true rfl hpc.le⟩
  obtain ⟨log1, hlog1, h0⟩ := fetch8_fetched hpc (k := 0) (by omega) hlog0
  obtain ⟨log2, hlog2, h1⟩ := fetch8_fetched hpc (k := 1) (by omega) hlog1
  have hfetch0 : fetch8 s = (byteAhead s 0, fetched s 1 log1) := by rw [← h0, ← hstart]
  simp only [fetchInstr, hfetch0, ← formatLength_formatOf]
  cases hformat : formatOf (byteAhead s 0) with
  | op => exact ⟨log1, hlog1, Prod.ext (decodeFields_congr (by rw [hformat]; rfl)) rfl⟩
  | opR | opC =>
    simp only [h1]
    exact ⟨log2, hlog2, Prod.ext (decodeFields_congr (by rw [hformat]; rfl)) rfl⟩
  | opRRR =>
    obtain ⟨log3, hlog3, h2⟩ := fetch8_fetched hpc (k := 2) (by omega) hlog2
    obtain ⟨log4, hlog4, h3⟩ := fetch8_fetched hpc (k := 3) (by omega) hlog3
    simp only [h1, h2, h3]
    exact ⟨log4, hlog4, Prod.ext (decodeFields_congr (by rw [hformat]; rfl)) rfl⟩
  | opRI =>
    obtain ⟨log6, hlog6, himm⟩ := fetch32_fetched hpc hlog2
    simp only [h1, himm]
    exact ⟨log6, hlog6, Prod.ext (decodeFields_congr (by rw [hformat]; rfl)) rfl⟩

end

/-- Settles O6: the fetch reads byte after byte, and its log is empty as long as the reads stay in memory. -/
theorem fetchReadsOperands : Obligations.FetchReadsOperands := by
  intro s hpc
  obtain ⟨new, ⟨honly, hempty⟩, hfetch⟩ := fetchInstr_fetched hpc
  exact ⟨new, hfetch, honly, hempty⟩

end Sys2Proof.Machine
end

section
/-! PROOFS. The execution loop (40_execution_loop.md): when a run is over, which steps are refused, the instruction of
an active step, the two that stop a run, the host's `run()`. -/

namespace Sys2Proof.Machine

/-! ### The end of a run -/

/-- Settles O11: the run's last step, which the fuel of 4096 reaches, stops it. -/
theorem runTerminates : Obligations.RunTerminates := by
  intro s hrun
  obtain ⟨k, u, t, c, -, hk, hcore, -, -, hlast⟩ :=
    runLoop_lastStep (fuel := Config.capacity) hrun (by decide) (Nat.le_add_left _ _)
  exact ⟨k + 1, t, hk, core_run_snoc hcore hlast.next, hlast.stopped⟩

/-! ### Refused steps -/

/-- While a run is in progress a step answers a next state, be it the engine's or the loop's exit. -/
theorem step_next_of_running {s : State} (h : s.running = true) : ∃ t, step s = .next t := by
  by_cases hpc : s.pc.toNat < Config.capacity
  · exact ⟨_, step_engineNext ((active_iff s).mpr ⟨h, hpc⟩)⟩
  · exact ⟨_, step_exit h (Nat.le_of_not_lt hpc)⟩

theorem hostLoadProgram_refused_iff (data : List Byte) (size : Nat) (s : State) :
    (∃ r, hostLoadProgram data size s = .refused r) ↔ data.length < min size 4096 := by
  rw [hostLoadProgram, ← capacity_eq]
  by_cases hshort : data.length < min size Config.capacity <;> simp [hshort]

/-- Of the host's transactions only `loadProgram` can be refused (R181, D18). -/
theorem hostTransact_refused_iff (op : HostOp) (s : State) :
    (∃ r, hostTransact op s = .refused r) ↔
      ∃ data size, op = .loadProgram data size ∧ data.length < min size 4096 := by
  cases op with
  | loadProgram data size => simpa [hostTransact] using hostLoadProgram_refused_iff data size s
  | reset | run | printState | persistState => simp [hostTransact]

/-- A stopped machine refuses what the host's next transaction refuses. -/
theorem hostStep_refused_iff (s : State) :
    (∃ r, hostStep s = .refused r) ↔
      ∃ data size rest, s.pending = .loadProgram data size :: rest ∧ data.length < min size 4096 := by
  cases hpending : s.pending with
  | nil => simp [hostStep, hpending]
  | cons op rest => simp [hostStep, hpending, hostTransact_refused_iff]

/-- Settles O41: the type of faults is empty, and a step that is not the host's answers a next state. -/
theorem onlyShortLoadIsRefused : Obligations.OnlyShortLoadIsRefused := by
  intro s
  refine ⟨nofun, ?_⟩
  obtain hrunning | hstopped := Bool.eq_false_or_eq_true s.running
  · obtain ⟨t, hstep⟩ := step_next_of_running hrunning
    simp [hstep, hrunning]
  · simp only [step_stopped hstopped, hostStep_refused_iff, hstopped, true_and]

/-! ### The instruction of an active step -/

/-- Settles O7. -/
theorem stepRunsDecoded : Obligations.StepRunsDecoded := fun _ _ _ _ => step_of_decode

/-- Settles O8. -/
theorem activeStepCompletes : Obligations.ActiveStepCompletes := fun _ h => ⟨_, step_engineNext h⟩

/-- Settles O10: the end-of-memory check, applied to the instruction's effect, writes `running` alone. -/
theorem endOfMemoryStopsRun : Obligations.EndOfMemoryStopsRun := by
  intro s h
  refine ⟨_, _, exec_eq _ _, step_engineNext h, ?_⟩
  rw [engineNext, engineStepUnder, endCheck_eq]
  exact ⟨rfl, rfl⟩

/-! ### The two instructions that stop a run -/

/-- Once the instruction itself has stopped the run, the end-of-memory check changes nothing (R105). -/
theorem endCheck_of_stopped {s : State} (h : s.running = false) : endCheck s = s := by
  rw [endCheck_eq, h, Bool.false_and, ← h]

/-- A one-byte instruction whose effect stops the run: the step is that effect, with `pc` moved by 1. -/
theorem step_of_stopping_byte {s t : State} {i : Instr} (hactive : s.active = true)
    (hdecode : decode [s.mem.read s.pc.toNat] = .ok (i, [])) (hlength : i.length = 1)
    (hexec : exec i (s.setPc (s.pc + 1#32)) = .next t) (hstopped : t.running = false) : step s = .next t := by
  have hpc := ((active_iff s).mp hactive).2
  have hbytes : s.holdsBytes s.pc.toNat [s.mem.read s.pc.toNat] := holdsBytes_cons.mpr ⟨⟨hpc, rfl⟩, hpc, nofun⟩
  rw [step_of_decode hactive hbytes hdecode, hlength, hexec, onNext, endCheck_of_stopped hstopped]

/-- Settles O18: HALT is a byte that stops the run. -/
theorem haltStops : Obligations.HaltStops :=
  ⟨fun _ => rfl, fun _ hactive hop => step_of_stopping_byte hactive (by rw [hop]; rfl) rfl rfl rfl⟩

/-- Settles O19: a byte that names no opcode decodes as UNKNOWN and stops the run. -/
theorem unknownOpcodeStops : Obligations.UnknownOpcodeStops := by
  obtain ⟨-, hdecode, -⟩ := unknownOpcodeBytes
  exact ⟨fun _ _ => rfl, fun s hactive hop => step_of_stopping_byte hactive ((hdecode _ []).1 hop) rfl rfl rfl⟩

/-! ### The entry of a run -/

/-- Settles O50: the stopped machine takes `run()`, whose entry sets `running` by where `pc` stands. -/
theorem runStartsAtCurrentPc : Obligations.RunStartsAtCurrentPc := by
  intro s rest hstopped hpending
  rw [step_stopped hstopped, hostStep, hpending]
  exact congrArg _ (enterRun_eq _)

end Sys2Proof.Machine
end

section
/-! PROOFS. LOAD and STORE (41_load_store.md): LOAD is a use of the register write port, STORE of the read port and the
word write. -/

namespace Sys2Proof.Machine

/-! ### STORE -/

/-- STORE puts the source register's value in memory as a word write at its operand address does (R53, R121); besides it
only logs, the bad index before the bad address (R207, D16). -/
theorem exec_store (r : Byte) (a : Word) (s : State) :
    exec (.store r a) s = .next { s with
      mem := (memWrite32 a.toNat (s.regValue r) s).mem
      diag := s.diag ++
        ((if 8 ≤ r.toNat then [.badReg] else []) ++ (if 4093 ≤ a.toNat then [.memWriteOor] else [])) } := by
  have hindex : 8 ≤ r.toNat ↔ ¬ r.toNat < 8 := by omega
  have haddr : 4093 ≤ a.toNat ↔ ¬ a.toNat + 3 < Config.capacity := by rw [capacity_eq]; omega
  simp only [hindex, haddr, ite_not, memWrite32_eq, ← List.append_assoc]
  exact congrArg Host.Outcome.next (storeUnder_eq r a s)

/-- Settles O21: what STORE leaves in memory is what the word write leaves there, in range and above (O17). -/
theorem storeSetsFourBytes : Obligations.StoreSetsFourBytes := by
  intro r a s hmem
  obtain ⟨hin, hout⟩ := wordAccess a.toNat (s.regValue r) s hmem
  refine ⟨_, _, exec_store r a s, rfl, rfl, fun ha => ?_, fun ha => ?_⟩
  · obtain ⟨-, t, rfl, -, -, hbytes⟩ := hin ha
    exact hbytes
  · obtain ⟨-, hwrite⟩ := hout ha
    rw [hwrite]

/-! ### LOAD -/

/-- LOAD is a checked write of the immediate to its register (R120). -/
theorem exec_load (r : Byte) (v : Word) (s : State) : exec (.load r v) s = .next (regWrite r v s) := rfl

/-- After a checked write the register that the index names has the value, and every other one is as before (R24). -/
theorem regWrite_getElem (i : Byte) (v : Word) (s : State) (j : Fin 8) :
    (regWrite i v s).regs[j] = if j.val = i.toNat then v else s.regs[j] := by
  by_cases hj : j.val = i.toNat
  · have hi : i.toNat < 8 := hj ▸ j.isLt
    rw [if_pos hj, regWrite_regs, dif_pos hi]
    simp [hj]
  · rw [if_neg hj, regWrite_regs_of_ne (Ne.symm hj)]

@[simp] theorem regWrite_pc (i : Byte) (v : Word) (s : State) : (regWrite i v s).pc = s.pc := by rw [regWrite_eq]

@[simp] theorem regWrite_running (i : Byte) (v : Word) (s : State) : (regWrite i v s).running = s.running := by
  rw [regWrite_eq]

/-- A step over the six bytes of a LOAD: `pc` past them, the register write, the end-of-memory check (R101, R105). -/
theorem step_load {r b0 b1 b2 b3 : Byte} {s : State} (hactive : s.active = true)
    (hbytes : s.holdsBytes s.pc.toNat [0x10#8, r, b0, b1, b2, b3]) :
    step s = .next (endCheck (regWrite r (be32 b0 b1 b2 b3) (s.setPc (s.pc + 6#32)))) :=
  step_of_decode (i := .load r (be32 b0 b1 b2 b3)) (rest := []) hactive hbytes rfl

/-- Settles O20: the two cases of the write port (O14), and the step over the six bytes. -/
theorem loadSetsRegister : Obligations.LoadSetsRegister := by
  refine ⟨fun r v s => ?_, fun r b0 b1 b2 b3 s hactive hbytes => ⟨_, step_load hactive hbytes, ?_⟩⟩
  · obtain ⟨hvalid, hbad⟩ := registerWritePort r v s
    exact ⟨fun hr => by rw [exec_load, hvalid hr], fun hr => by rw [exec_load, hbad hr]⟩
  · have hrunning : s.running = true := ((active_iff s).mp hactive).1
    obtain ⟨hfits, -⟩ := hbytes
    have hpc : (s.pc + 6#32).toNat = s.pc.toNat + 6 := toNat_add_of_le_capacity (n := 6) hfits
    rw [endCheck_eq]
    exact ⟨by simpa using hpc, by simp [hrunning, hpc, capacity_eq], regWrite_getElem r _ _⟩

end Sys2Proof.Machine
end

section
/-! PROOFS. ADD, SUB, MUL and DIV (42_arithmetic.md): the four results are the operations of `BitVec`, and the four
instructions are one three-register operation. -/

namespace Sys2Proof.Machine

/-! ### The operations of `BitVec` on naturals, as the rules write them -/

theorem add_eq_ofNat (x y : Word) : x + y = BitVec.ofNat 32 ((x.toNat + y.toNat) % 0x100000000) :=
  BitVec.eq_of_toNat_eq (by simp)

theorem sub_eq_ofNat (x y : Word) : x - y = BitVec.ofNat 32 ((x.toNat + 0x100000000 - y.toNat) % 0x100000000) :=
  BitVec.eq_of_toNat_eq (by simp; omega)

/-- The two cases of R131: the minuend reaches the subtrahend, or 2^32 is borrowed. -/
theorem sub_eq_ite (x y : Word) :
    x - y = if y.toNat ≤ x.toNat then BitVec.ofNat 32 (x.toNat - y.toNat)
      else BitVec.ofNat 32 (0x100000000 + x.toNat - y.toNat) := by
  split <;> exact BitVec.eq_of_toNat_eq (by simp; omega)

theorem mul_eq_ofNat (x y : Word) : x * y = BitVec.ofNat 32 ((x.toNat * y.toNat) % 0x100000000) :=
  BitVec.eq_of_toNat_eq (by simp)

theorem div_eq_ofNat (x y : Word) : x / y = BitVec.ofNat 32 (x.toNat / y.toNat) := by
  rw [← BitVec.toNat_udiv, BitVec.ofNat_toNat, BitVec.setWidth_eq]

/-! ### The four results -/

@[simp] theorem addResult_eq (x y : Word) : addResult x y = (x + y, none) := by
  simp [addResult, BitVec.ofNat_add]

@[simp] theorem subResult_eq (x y : Word) : subResult x y = (x - y, none) := by
  have hdiff : BitVec.ofInt 32 ((x.toNat : Int) - y.toNat) = x - y :=
    BitVec.eq_of_toNat_eq (by simp [BitVec.toNat_ofInt]; omega)
  rw [subResult, hdiff]

@[simp] theorem mulResult_eq (x y : Word) : mulResult x y = (x * y, none) := by
  simp [mulResult, BitVec.ofNat_mul]

/-- The quotient 0 for divisor 0 is that of `BitVec` too (R133). -/
@[simp] theorem divResult_eq (x y : Word) :
    divResult x y = (x / y, if y = 0#32 then some .divZero else none) := by
  unfold divResult
  split
  case isTrue hy => simp [hy]
  case isFalse => rw [div_eq_ofNat]

/-- Settles O28: the laws are those of `BitVec`, the table of DIV that of division on naturals. -/
theorem arithmeticLaws : Obligations.ArithmeticLaws := by
  refine ⟨fun a b c => ?_, fun a b => ⟨fun hb => ?_, fun hb => ?_⟩⟩
  · simp [BitVec.add_comm a b, BitVec.mul_comm a b, BitVec.mul_add]
  · simp [hb]
  · have hpos : 0 < b.toNat := BitVec.toNat_pos_of_ne_zero hb
    simp only [divResult_eq, if_neg hb, BitVec.toNat_udiv, true_and]
    refine ⟨⟨a.toNat % b.toNat, Nat.mod_lt _ hpos, (Nat.div_add_mod _ _).symm⟩, fun hlt => ?_, fun hle => ?_⟩
    · rw [div_eq_ofNat, Nat.div_eq_of_lt hlt]
    · exact ⟨Nat.div_pos hle hpos, Nat.div_le_self _ _⟩

/-! ### The three-register operation on any indices -/

/-- The instruction `i` is `ALU(g)` of R134 on these three register bytes. -/
def PerformsAlu (i : Instr) (g : Word → Word → Word × Option Diag) (d a b : Byte) : Prop :=
  ∀ s : State, exec i s = .next (aluOp Config.badRegPolicy g d a b s)

theorem add_performsAlu (d a b : Byte) : PerformsAlu (.add d a b) addResult d a b := fun _ => rfl

theorem sub_performsAlu (d a b : Byte) : PerformsAlu (.sub d a b) subResult d a b := fun _ => rfl

theorem mul_performsAlu (d a b : Byte) : PerformsAlu (.mul d a b) mulResult d a b := fun _ => rfl

theorem div_performsAlu (d a b : Byte) : PerformsAlu (.div d a b) divResult d a b := fun _ => rfl

/-- What an ALU instruction does on any indices: a checked write of its result, and the diagnostics in the order of R207
(R134, D4, D16). -/
theorem exec_alu {i : Instr} {g : Word → Word → Word × Option Diag} {d a b : Byte} (hi : PerformsAlu i g d a b)
    (s : State) :
    exec i s = .next { s with
      regs := (regWrite d (g (s.regValue a) (s.regValue b)).1 s).regs
      diag := s.diag ++
        ((if 8 ≤ a.toNat then [.badReg] else []) ++ (if 8 ≤ b.toNat then [.badReg] else []) ++
          (g (s.regValue a) (s.regValue b)).2.toList ++ (if 8 ≤ d.toNat then [.badReg] else [])) } := by
  simp only [← Nat.not_lt, ite_not, ← List.append_assoc, regWrite_regs]
  rw [hi, badRegPolicy_eq, aluOp_eq]

/-- The result function of an ALU instruction, from its function on naturals: only DIV reports anything. -/
theorem exists_performsAlu {d a b : Byte} {i : Instr} {f : Nat → Nat → Nat}
    (h : (i = .add d a b ∧ f = fun x y => (x + y) % 0x100000000) ∨
      (i = .sub d a b ∧ f = fun x y => (x + 0x100000000 - y) % 0x100000000) ∨
      (i = .mul d a b ∧ f = fun x y => (x * y) % 0x100000000) ∨
      (i = .div d a b ∧ f = fun x y => if y = 0 then 0 else x / y)) :
    ∃ g, PerformsAlu i g d a b ∧ ∀ x y : Word,
      (g x y).1 = BitVec.ofNat 32 (f x.toNat y.toNat) ∧
      (g x y).2.toList = if i = .div d a b ∧ y = 0#32 then [.divZero] else [] := by
  rcases h with ⟨rfl, rfl⟩ | ⟨rfl, rfl⟩ | ⟨rfl, rfl⟩ | ⟨rfl, rfl⟩
  · exact ⟨_, add_performsAlu d a b, fun x y => ⟨by rw [addResult_eq, add_eq_ofNat], by simp⟩⟩
  · exact ⟨_, sub_performsAlu d a b, fun x y => ⟨by rw [subResult_eq, sub_eq_ofNat], by simp⟩⟩
  · exact ⟨_, mul_performsAlu d a b, fun x y => ⟨by rw [mulResult_eq, mul_eq_ofNat], by simp⟩⟩
  · refine ⟨_, div_performsAlu d a b, fun x y => ?_⟩
    by_cases hy : y = 0#32
    · simp [hy]
    · have hne : y.toNat ≠ 0 := (BitVec.toNat_pos_of_ne_zero hy).ne'
      simp [hy, hne, div_eq_ofNat]

/-- Settles O27: the write port sets the register that `dst` names, if it names one, and no other. -/
theorem aluAnyIndices : Obligations.AluAnyIndices := by
  intro d a b s i f h
  obtain ⟨g, hi, hg⟩ := exists_performsAlu h
  obtain ⟨hvalue, hdiag⟩ := hg (s.regValue a) (s.regValue b)
  refine ⟨_, exec_alu hi s, rfl, fun j => ?_, ?_⟩
  · rw [← hvalue]
    exact regWrite_getElem d _ s j
  · rw [← hdiag]

/-! ### Valid registers -/

section
variable {i : Instr} {g : Word → Word → Word × Option Diag} {op d a b : Byte} {s : State}
  (hi : PerformsAlu i g d a b) (hd : d.toNat < 8) (ha : a.toNat < 8) (hb : b.toNat < 8) {v : Word} {k : Option Diag}
include hi

/-- On valid registers an ALU instruction sets `dst` to the result and logs only what the result reports. -/
theorem exec_alu_valid (hg : g s.regs[a.toNat] s.regs[b.toNat] = (v, k)) :
    exec i s = .next { s with regs := s.regs.set d.toNat v hd, diag := s.diag ++ k.toList } := by
  have hvalueA : s.regValue a = s.regs[a.toNat] := dif_pos ha
  have hvalueB : s.regValue b = s.regs[b.toNat] := dif_pos hb
  rw [exec_alu hi, hvalueA, hvalueB, hg]
  simp [regWrite_regs, hd, Nat.not_le.mpr hd, Nat.not_le.mpr ha, Nat.not_le.mpr hb]

/-- The step over the four bytes of an ALU instruction on valid registers (R101, R105). -/
theorem step_alu_valid (hg : g s.regs[a.toNat] s.regs[b.toNat] = (v, k)) (hactive : s.active = true)
    (hbytes : s.holdsBytes s.pc.toNat [op, d, a, b]) (hdecode : decode [op, d, a, b] = .ok (i, []))
    (hlength : i.length = 4) :
    step s = .next { s with
      pc := s.pc + 4#32
      running := decide (s.pc.toNat + 4 < 4096)
      regs := s.regs.set d.toNat v hd
      diag := s.diag ++ k.toList } := by
  have hrunning : s.running = true := ((active_iff s).mp hactive).1
  have hpc : (s.pc + 4#32).toNat = s.pc.toNat + 4 := toNat_add_of_le_capacity (n := 4) hbytes.1
  rw [step_of_decode hactive hbytes hdecode, hlength, exec_alu_valid (s := s.setPc (s.pc + 4#32)) hi hd ha hb hg,
    onNext, endCheck_eq]
  simp [hrunning, hpc, capacity_eq, State.setPc]

end

/-- An ALU instruction that reports nothing changes `dst` and, over its four bytes, `pc` and `running`; nothing else. -/
theorem silent_alu_writes_dst {instr : Byte → Byte → Byte → Instr} {g : Word → Word → Word × Option Diag} {op : Byte}
    {r : Word → Word → Word} (hi : ∀ d a b, PerformsAlu (instr d a b) g d a b) (hg : ∀ x y, g x y = (r x y, none))
    (hdecode : ∀ d a b, decode [op, d, a, b] = .ok (instr d a b, [])) (hlength : ∀ d a b, (instr d a b).length = 4) :
    (∀ (d a b : Byte) (s : State) (hd : d.toNat < 8) (ha : a.toNat < 8) (hb : b.toNat < 8),
      exec (instr d a b) s =
        .next { s with regs := s.regs.set d.toNat (r s.regs[a.toNat] s.regs[b.toNat]) hd }) ∧
    (∀ (d a b : Byte) (s : State) (hd : d.toNat < 8) (ha : a.toNat < 8) (hb : b.toNat < 8),
      s.active = true → s.holdsBytes s.pc.toNat [op, d, a, b] →
      step s = .next { s with
        pc := s.pc + 4#32
        running := decide (s.pc.toNat + 4 < 4096)
        regs := s.regs.set d.toNat (r s.regs[a.toNat] s.regs[b.toNat]) hd }) := by
  refine ⟨fun d a b s hd ha hb => ?_, fun d a b s hd ha hb hactive hbytes => ?_⟩
  · simpa using exec_alu_valid (hi d a b) hd ha hb (hg _ _)
  · simpa using step_alu_valid (hi d a b) hd ha hb (hg _ _) hactive hbytes (hdecode d a b) (hlength d a b)

/-- Settles O23: ADD reports nothing, and its sum on naturals is that of `BitVec`. -/
theorem addWraps : Obligations.AddWraps :=
  silent_alu_writes_dst add_performsAlu (r := fun x y => BitVec.ofNat 32 ((x.toNat + y.toNat) % 0x100000000))
    (fun x y => by rw [addResult_eq, add_eq_ofNat]) (fun _ _ _ => rfl) (fun _ _ _ => rfl)

/-- Settles O24: SUB reports nothing, and its difference by cases is that of `BitVec`. -/
theorem subWraps : Obligations.SubWraps :=
  silent_alu_writes_dst sub_performsAlu (r := fun x y =>
      if y.toNat ≤ x.toNat then BitVec.ofNat 32 (x.toNat - y.toNat)
      else BitVec.ofNat 32 (0x100000000 + x.toNat - y.toNat))
    (fun x y => by rw [subResult_eq, sub_eq_ite]) (fun _ _ _ => rfl) (fun _ _ _ => rfl)

/-- Settles O25: MUL reports nothing, and the low half of its product on naturals is the product of `BitVec`. -/
theorem mulKeepsLowHalf : Obligations.MulKeepsLowHalf :=
  silent_alu_writes_dst mul_performsAlu (r := fun x y => BitVec.ofNat 32 ((x.toNat * y.toNat) % 0x100000000))
    (fun x y => by rw [mulResult_eq, mul_eq_ofNat]) (fun _ _ _ => rfl) (fun _ _ _ => rfl)

/-- Settles O26: with divisor 0 DIV answers the quotient 0 and reports it; the step goes on either way. -/
theorem divFloorsOrZeroes : Obligations.DivFloorsOrZeroes := by
  refine ⟨fun d a b s hd ha hb => ?_, fun d a b s hd ha hb hactive hbytes => ?_⟩
  · have hexec := exec_alu_valid (div_performsAlu d a b) hd ha hb (divResult_eq s.regs[a.toNat] s.regs[b.toNat])
    refine ⟨fun hne => ?_, fun hzero => ?_⟩
    · simpa [hne, ← div_eq_ofNat] using hexec
    · simpa [hzero] using hexec
  · have hpc : (s.pc + 4#32).toNat = s.pc.toNat + 4 := toNat_add_of_le_capacity (n := 4) hbytes.1
    refine ⟨_, step_alu_valid (div_performsAlu d a b) hd ha hb (divResult_eq _ _) hactive hbytes rfl rfl, hpc,
      decide_eq_true_iff, ?_⟩
    rw [Vector.getElem_set_self, ← div_eq_ofNat]
    split
    case isTrue hzero => rw [hzero, BitVec.udiv_zero]
    case isFalse => rfl

end Sys2Proof.Machine
end

section
/-! PROOFS. PUSH and POP (43_stack.md): what a push and a pop do to `sp` and to the slots, the two instructions as uses of
them, and pushes and pops in a row. -/

namespace Sys2Proof.Machine

/-! ### Push -/

theorem sp_ne_zero_of_pos {s : State} (h : 0 < s.sp.toNat) : s.sp ≠ 0#8 := by
  intro hsp
  simp [hsp] at h

theorem push_full (v : Word) {s : State} (hfull : s.sp = 0#8) :
    push v s = { s with diag := s.diag ++ [.stackOverflow] } := if_pos hfull

theorem push_of_room (v : Word) {s : State} (hroom : s.sp ≠ 0#8) :
    push v s = { s with stack := s.stack.write s.sp.toNat v, sp := s.sp - 1#8 } := if_neg hroom

/-- A push lowers `sp` by 1; the truncated difference keeps the 0 of a full stack. -/
theorem push_sp_toNat (v : Word) (s : State) : (push v s).sp.toNat = s.sp.toNat - 1 := by
  by_cases hsp : s.sp = 0#8
  · rw [push_full v hsp, hsp]
    rfl
  · rw [push_of_room v hsp]
    show (s.sp - 1#8).toNat = _
    bv_omega

theorem push_stack_read (v : Word) {s : State} (hwf : s.stack.wf) (j : Nat) :
    (push v s).stack.read j = if s.sp ≠ 0#8 ∧ j = s.sp.toNat then v else s.stack.read j := by
  by_cases hsp : s.sp = 0#8
  · simp [push_full v hsp, hsp]
  · simp [push_of_room v hsp, hsp, Slots.read_write hwf]

theorem push_stack_wf (v : Word) {s : State} (hwf : s.stack.wf) : (push v s).stack.wf := by
  by_cases hsp : s.sp = 0#8
  · rwa [push_full v hsp]
  · rw [push_of_room v hsp]
    exact Slots.write_wf hwf s.sp.isLt v

/-- Settles O29: the two cases of a push, with its slots by read after write. -/
theorem pushPrimitive : Obligations.PushPrimitive := by
  intro v s hwf
  refine ⟨push_full v, fun hsp => ⟨_, rfl, ?_, push_sp_toNat v s, fun j => ?_⟩⟩
  · rw [push_of_room v hsp]
  · simp [push_stack_read v hwf, hsp]

/-! ### Pop -/

theorem pop_empty {s : State} (hempty : 255 ≤ s.sp.toNat) :
    pop s = (none, { s with diag := s.diag ++ [.stackUnderflow] }) := if_pos hempty

theorem pop_of_lt {s : State} (hsp : s.sp.toNat < 255) :
    pop s = (some (s.stack.read (s.sp.toNat + 1)), { s with sp := s.sp + 1#8 }) := if_neg (Nat.not_le.mpr hsp)

/-- Below `SP_EMPTY` the 8 bits of `sp` do not wrap. -/
theorem sp_add_one_toNat {sp : Byte} (hsp : sp.toNat < 255) : (sp + 1#8).toNat = sp.toNat + 1 := by bv_omega

/-- Settles O30: the two cases of a pop. -/
theorem popPrimitive : Obligations.PopPrimitive :=
  fun _ => ⟨pop_empty, fun hsp => ⟨_, pop_of_lt hsp, rfl, sp_add_one_toNat hsp⟩⟩

/-! ### The two instructions -/

/-- PUSH reads its register, which logs a bad index, then pushes the value read (R152). -/
theorem exec_push (r : Byte) (s : State) :
    exec (.push r) s =
      .next (push (s.regValue r) { s with diag := s.diag ++ if 8 ≤ r.toNat then [.badReg] else [] }) := by
  rw [exec_eq, badRegPolicy_eq]
  simp only [← Nat.not_lt, ite_not, effectUnder, pushUnder, withRegs_portDefault, regRead_eq]

/-- Settles O31: what PUSH does to `sp` and the slots is what the push does to them, on a state that differs in DIAG. -/
theorem pushInstruction : Obligations.PushInstruction := by
  intro r s hwf
  refine ⟨_, exec_push r s, ?_, ?_, push_sp_toNat _ _, push_stack_read _ hwf⟩
  · rw [push_eq]
  · rw [push_eq, List.append_assoc]

theorem exec_pop (r : Byte) (s : State) : exec (.pop r) s = .next (popUnder .portDefault r s) := rfl

/-- Settles O32: on the empty stack POP only logs; else it is a pop and a checked write of the value (R24). -/
theorem popInstruction : Obligations.PopInstruction := by
  intro r s
  refine ⟨fun hempty => ?_, fun hsp => ⟨_, exec_pop r s, ?_⟩⟩
  · rw [exec_pop, popUnder_eq_empty r hempty]
  · rw [popUnder_eq r hsp, ← regWrite_regs]
    exact ⟨rfl, sp_add_one_toNat hsp, by simp only [← Nat.not_lt, ite_not], regWrite_getElem r _ s⟩

/-! ### Pushes in a row -/

theorem exec_push_valid {r : Byte} (hr : r.toNat < 8) (s : State) :
    exec (.push r) s = .next (push (s.regValue r) s) := by
  simp [exec_push, Nat.not_le.mpr hr]

/-- `n` pushes of one register onto a stack with room for them fill the `n` slots from `sp` downward. -/
theorem execMany_push {r : Byte} (hr : r.toNat < 8) (n : Nat) {s : State} (hwf : s.stack.wf) (hn : n ≤ s.sp.toNat) :
    ∃ t : State, execMany (List.replicate n (.push r)) s = .next t ∧ t = { s with stack := t.stack, sp := t.sp } ∧
      t.sp.toNat = s.sp.toNat - n ∧
      ∀ j : Nat, t.stack.read j =
        if s.sp.toNat - n < j ∧ j ≤ s.sp.toNat then s.regValue r else s.stack.read j := by
  induction n generalizing s with
  | zero => exact ⟨s, rfl, rfl, rfl, fun j => (if_neg (by omega)).symm⟩
  | succ n ih =>
    have hroom : s.sp ≠ 0#8 := sp_ne_zero_of_pos (by omega)
    have hsp := push_sp_toNat (s.regValue r) s
    obtain ⟨t, hexec, hframe, htsp, hslots⟩ := ih (push_stack_wf (s.regValue r) hwf) (by omega)
    have hvalue : (push (s.regValue r) s).regValue r = s.regValue r := by rw [push_of_room _ hroom]; rfl
    refine ⟨t, ?_, ?_, by omega, fun j => ?_⟩
    · rw [List.replicate_succ, execMany, exec_push_valid hr]
      exact hexec
    · rw [hframe, push_of_room _ hroom]
    · rw [hslots, push_stack_read _ hwf, hvalue, hsp]
      by_cases hfirst : j = s.sp.toNat
      · rw [if_neg (by omega), if_pos ⟨hroom, hfirst⟩, if_pos (by omega)]
      · simp only [hfirst, and_false, if_false]
        exact if_congr (by omega) rfl rfl

/-- Settles O33: the pushes fill the slots from 255 downward, and after 255 of them `sp` is 0; a reset machine's stack is
empty (O32). -/
theorem stackHolds255 : Obligations.StackHolds255 := by
  refine ⟨fun r s n hr hsp hwf hn => ?_, fun r => (popInstruction r State.reset).1 (by decide)⟩
  have hsp255 : s.sp.toNat = 255 := by rw [hsp]; rfl
  obtain ⟨t, hexec, hframe, htsp, hslots⟩ := execMany_push hr n hwf (hsp255 ▸ hn)
  rw [hsp255] at htsp hslots
  refine ⟨t, hexec, htsp, by rw [hframe], by rw [hframe], hslots, fun hall => ?_⟩
  have hfull : t.sp = 0#8 := BitVec.eq_of_toNat_eq (by rw [htsp, hall]; rfl)
  rw [exec_push_valid hr, push_full _ hfull]

/-! ### Pops in a row -/

/-- Pops in a row, unrolled at their end. -/
theorem popMany_succ_last (n : Nat) (s : State) :
    popMany (n + 1) s = ((popMany n s).1 ++ [(pop (popMany n s).2).1], (pop (popMany n s).2).2) := by
  induction n generalizing s with
  | zero => rfl
  | succ n ih =>
    rw [popMany, ih]
    rfl

/-- Settles O34, by induction on the values: the first one pushed stands in slot `sp`, which the later ones stay below, so
the last pop brings it back. -/
theorem lastInFirstOut : Obligations.LastInFirstOut := by
  intro vs
  induction vs with
  | nil => exact fun s _ _ => ⟨s, rfl, rfl, fun _ _ => rfl⟩
  | cons v vs ih =>
    intro s hwf hlength
    rw [List.length_cons] at hlength
    have hroom : s.sp ≠ 0#8 := sp_ne_zero_of_pos (by omega)
    have hsp := push_sp_toNat v s
    obtain ⟨t, hpops, hframe, habove⟩ := ih (push v s) (push_stack_wf v hwf) (by omega)
    have htsp : t.sp = s.sp - 1#8 := by rw [hframe, push_of_room v hroom]
    have htop : t.sp.toNat + 1 = s.sp.toNat := by rw [htsp]; bv_omega
    have hvalue : t.stack.read s.sp.toNat = v := by
      rw [habove _ (by omega), push_stack_read v hwf, if_pos ⟨hroom, rfl⟩]
    have hpop : pop t = (some v, { t with sp := s.sp }) := by
      rw [pop_of_lt (by omega), htop, hvalue, htsp, BitVec.sub_add_cancel]
    refine ⟨{ t with sp := s.sp }, ?_, ?_, fun j hj => ?_⟩
    · simp [popMany_succ_last, hpops, hpop]
    · rw [hframe, push_of_room v hroom]
    · rw [habove j (by omega), push_stack_read v hwf, if_neg (by omega)]

end Sys2Proof.Machine
end

section
/-! PROOFS. SYSCALL (44_syscall.md): the loop of PRINT_STRING as a prefix of memory's bytes, the loop of LOAD_DATA as a copy
of so many bytes, and the code that selects no service. -/

namespace Sys2Proof.Machine

/-! ### PRINT_STRING -/

/-- With one round for each address up to the end of memory, the loop sends the bytes from `a` up to a zero byte (R162). -/
theorem printLoop_eq {fuel a : Nat} (hfuel : Config.capacity ≤ a + fuel) (s : State) :
    printLoop fuel a s = { s with out := s.out ++
      ((List.range' a (Config.capacity - a)).map s.mem.read).takeWhile (· ≠ 0#8) } := by
  induction fuel generalizing a s with
  | zero =>
    have hend : Config.capacity - a = 0 := by omega
    simp [printLoop, hend]
  | succ fuel ih =>
    rw [printLoop]
    by_cases ha : a < Config.capacity
    · have hcount : Config.capacity - a = Config.capacity - (a + 1) + 1 := by omega
      rw [hcount, List.range'_succ, List.map_cons]
      by_cases hb : s.mem.read a = 0#8
      · simp [hb]
      · rw [if_pos ⟨ha, hb⟩, ih (by omega)]
        simp [State.emit, hb]
    · have hend : Config.capacity - a = 0 := by omega
      simp [ha, hend]

/-- Settles O35: `CAPACITY` rounds are enough from any address. -/
theorem printStringOutput : Obligations.PrintStringOutput :=
  fun s => congrArg Host.Outcome.next (printLoop_eq (Nat.le_add_left _ _) s)

/-! ### LOAD_DATA -/

/-- The memory after `i` rounds of LOAD_DATA's loop from offset 0: each round reads what the rounds before it left. -/
def copyBytes (dst src : Nat) (m : Memory) : Nat → Memory
  | 0 => m
  | i + 1 => (copyBytes dst src m i).write (dst + i) ((copyBytes dst src m i).read (src + i))

/-- The number of bytes that LOAD_DATA copies: the offsets below `n` before the first one out of range (R163). -/
def copyCount (dst src n : Nat) : Nat := min n (min (Config.capacity - src) (Config.capacity - dst))

theorem copyBytes_wf {dst src i : Nat} {m : Memory} (h : m.wf) (hi : i ≤ Config.capacity - dst) :
    (copyBytes dst src m i).wf := by
  induction i with
  | zero => exact h
  | succ i ih => exact Memory.write_wf (ih (by omega)) (by omega) _

/-- What an ascending copy leaves at every address: where it overlaps its own source from below, the `dst - src` bytes in
front of `dst` are repeated (D9). -/
theorem read_copyBytes {dst src i : Nat} {m : Memory} (h : m.wf) (hi : i ≤ Config.capacity - dst) (a : Nat) :
    (copyBytes dst src m i).read a =
      if dst ≤ a ∧ a < dst + i then m.read (src + (if src < dst then (a - dst) % (dst - src) else a - dst))
      else m.read a := by
  induction i generalizing a with
  | zero => exact (if_neg (by omega)).symm
  | succ i ih =>
    have hprev : i ≤ Config.capacity - dst := by omega
    rw [copyBytes, Memory.read_write (copyBytes_wf h hprev)]
    by_cases ha : a = dst + i
    · rw [if_pos ha, if_pos (by omega), ih hprev, ha, Nat.add_sub_cancel_left]
      by_cases hover : src < dst
      · simp only [if_pos hover]
        by_cases hwritten : dst ≤ src + i
        · have hback : src + i - dst = i - (dst - src) := by omega
          rw [if_pos (by omega), hback, ← Nat.mod_eq_sub_mod (by omega)]
        · rw [if_neg (by omega), Nat.mod_eq_of_lt (by omega)]
      · rw [if_neg (by omega), if_neg hover]
    · rw [if_neg ha, ih hprev]
      exact if_congr (by omega) rfl rfl

/-- From offset `i` of a copy in progress the loop finishes the copy, and logs when offsets are left over (R163). -/
theorem copyLoop_eq {fuel dst src n i : Nat} (hi : i ≤ copyCount dst src n) (hfuel : copyCount dst src n < i + fuel)
    (s : State) :
    copyLoop fuel dst src n i { s with mem := copyBytes dst src s.mem i } = { s with
      mem := copyBytes dst src s.mem (copyCount dst src n)
      diag := s.diag ++ if copyCount dst src n < n then [.copyOor] else [] } := by
  induction fuel generalizing i with
  | zero => omega
  | succ fuel ih =>
    rw [copyLoop]
    by_cases hlast : i = copyCount dst src n
    · rw [← hlast]
      by_cases hn : i < n
      · have hout : src + i ≥ Config.capacity ∨ dst + i ≥ Config.capacity := by
          rw [copyCount] at hlast
          omega
        rw [if_pos hn, if_pos hout, if_pos hn]
        rfl
      · simp [hn]
    · obtain ⟨hn, hin⟩ : i < n ∧ ¬ (src + i ≥ Config.capacity ∨ dst + i ≥ Config.capacity) := by
        rw [copyCount] at hi hlast
        omega
      rw [if_pos hn, if_neg hin]
      exact ih (by omega) (by omega)

/-- LOAD_DATA copies `copyCount` bytes and logs when that is fewer than `x[2]`. -/
theorem loadData_eq (s : State) :
    loadData s = { s with
      mem := copyBytes s.regs[0].toNat s.regs[1].toNat s.mem
        (copyCount s.regs[0].toNat s.regs[1].toNat s.regs[2].toNat)
      diag := s.diag ++
        if copyCount s.regs[0].toNat s.regs[1].toNat s.regs[2].toNat < s.regs[2].toNat then [.copyOor] else [] } :=
  copyLoop_eq (Nat.zero_le _) (by rw [copyCount]; omega) s

/-- Settles O36: the loop is a copy of `copyCount` bytes, and `read_copyBytes` says what such a copy leaves. -/
theorem loadDataCopies : Obligations.LoadDataCopies := by
  intro s hmem dst src n k
  have hk : k ≤ Config.capacity - dst := (min_le_right _ _).trans (min_le_right _ _)
  exact ⟨_, congrArg Host.Outcome.next (loadData_eq s), rfl, rfl, read_copyBytes hmem hk⟩

/-! ### Any other service -/

theorem exec_syscall_other {c : Byte} (h1 : c ≠ 0x01#8) (h2 : c ≠ 0x02#8) (s : State) :
    exec (.syscall c) s = .next { s with diag := s.diag ++ [.unknownSyscall] } := by
  have hdispatch : dispatchService c s = s.logDiag .unknownSyscall := by rw [dispatchService, if_neg h1, if_neg h2]
  exact congrArg Host.Outcome.next hdispatch

theorem decode_syscall_other {c : Byte} (h1 : c ≠ 0x01#8) (h2 : c ≠ 0x02#8) :
    decode [0xFF#8, c] = .ok (.syscall c, []) := by
  have hbytes : decode [0xFF#8, c] = .ok (decodeService c, []) := rfl
  obtain ⟨h, -⟩ | ⟨h, -⟩ | ⟨-, -, hservice⟩ := decodeService_cases c
  · exact absurd h h1
  · exact absurd h h2
  · rw [hbytes, hservice]

/-- Settles O37: the dispatcher's last case, and the step over the two bytes that decode to it (R101, R105). -/
theorem unknownServiceIsNoOp : Obligations.UnknownServiceIsNoOp := by
  refine ⟨fun c s h1 h2 => exec_syscall_other h1 h2 s, fun c s h1 h2 hactive hbytes => ?_⟩
  have hrunning : s.running = true := ((active_iff s).mp hactive).1
  have hpc : (s.pc + 2#32).toNat = s.pc.toNat + 2 := toNat_add_of_le_capacity (n := 2) hbytes.1
  rw [step_of_decode hactive hbytes (decode_syscall_other h1 h2), exec_syscall_other h1 h2, onNext, endCheck_eq]
  simp [Instr.length, hrunning, hpc, capacity_eq, State.setPc]

end Sys2Proof.Machine
end

section
/-! PROOFS. The host transactions (45_host_operations.md): who moves, and what `loadProgram`, `persistState`,
`printState` and a `reset()` after a persist leave. -/

namespace Sys2Proof.Machine

/-! ### Who moves (R180) -/

/-- A stopped machine takes the host's next transaction. -/
theorem step_of_pending {s : State} {op : HostOp} {rest : List HostOp} (hstopped : s.running = false)
    (hpending : s.pending = op :: rest) : step s = hostTransact op { s with pending := rest } := by
  rw [step_stopped hstopped, hostStep, hpending]

/-- The engine's step leaves the host's transactions and the backing image alone: no effect's shape writes them. -/
theorem engineNext_host_frame {s : State} (h : s.active = true) :
    (engineNext s).pending = s.pending ∧ (engineNext s).backing = s.backing := by
  obtain ⟨b1, b2, b3, imm, new, u, -, hshape, hstep⟩ := engineNext_spec h
  rw [hstep]
  exact ⟨hshape.pending_eq, hshape.backing_eq⟩

/-- Settles O51: of the four cases of a step only the engine's and the loop's exit are steps of a run. -/
theorem hostMovesOnlyWhenStopped : Obligations.HostMovesOnlyWhenStopped := by
  refine ⟨fun s t hrunning hstep => ?_, fun s hstopped hnone => ?_⟩
  · obtain ⟨hactive, rfl⟩ | ⟨-, -, rfl⟩ | ⟨hstopped, -⟩ | ⟨hstopped, -⟩ := step_cases hstep
    · exact engineNext_host_frame hactive
    · exact ⟨rfl, rfl⟩
    · cases hrunning.symm.trans hstopped
    · cases hrunning.symm.trans hstopped
  · rw [step_stopped hstopped, hostStep, hnone]

/-! ### `loadProgram` (R181) -/

/-- The first `n` bytes of enough data, written from address 0. -/
theorem read_writeBytes_take {m : Memory} (h : m.wf) {data : List Byte} {n : Nat} (hn : n ≤ Config.capacity)
    (hdata : n ≤ data.length) (a : Nat) :
    (m.writeBytes 0 (data.take n)).read a = if a < n then data.getD a 0#8 else m.read a := by
  have hlength : (data.take n).length = n := List.length_take_of_le hdata
  rw [Memory.read_writeBytes h _ (by omega), hlength]
  by_cases ha : a < n
  · simp [ha, List.getD]
  · simp [ha]

/-- Settles O47: with enough data the bytes are written, with too little the call is refused. -/
theorem loadProgramOverwritesFront : Obligations.LoadProgramOverwritesFront := by
  intro s data size rest hstopped hpending hmem
  rw [step_of_pending hstopped hpending, hostTransact, hostLoadProgram]
  refine ⟨fun henough => ?_, fun hshort => if_pos hshort⟩
  exact ⟨_, if_neg (Nat.not_lt.mpr henough), rfl, read_writeBytes_take hmem (min_le_right _ _) henough⟩

/-! ### `persistState`, `printState` and `reset()` (R186, R188, R189) -/

theorem step_persistState {s : State} {rest : List HostOp} (hstopped : s.running = false)
    (hpending : s.pending = .persistState :: rest) :
    step s = .next { s with backing := some s.mem.toBytes, pending := rest } :=
  step_of_pending hstopped hpending

/-- Settles O48: the image is the list of all bytes of memory. -/
theorem persistWritesImage : Obligations.PersistWritesImage := fun s _ hstopped hpending =>
  ⟨s.mem.toBytes, step_persistState hstopped hpending, s.mem.length_toBytes, fun _ => s.mem.getD_toBytes⟩

/-- Settles O49: `printState()` is one event in `DIAG`. -/
theorem printStateDumps : Obligations.PrintStateDumps := fun _ _ => step_of_pending

/-- A canonical memory comes back from the file of its own bytes, without a warning. -/
theorem restoreImage_toBytes {m : Memory} (h : m.wf) : restoreImage (some m.toBytes) = (m, false) := by
  rw [restoreImage, if_pos m.length_toBytes]
  have hmem : Memory.ofImage (fun a => m.toBytes.getD a 0#8) = m := by
    refine Memory.ext_of_read (Memory.ofImage_wf _) h fun a => ?_
    rw [Memory.read_ofImage]
    by_cases ha : a < Config.capacity
    · rw [if_pos ha, m.getD_toBytes ha]
    · rw [if_neg ha, Memory.read_outside h (Nat.le_of_not_lt ha)]
  rw [hmem]

/-- `reset()` with a canonical memory's bytes in the backing file. -/
theorem hostReset_of_backing_toBytes {s : State} {m : Memory} (h : m.wf) (hbacking : s.backing = some m.toBytes) :
    hostReset s = { State.reset with
      mem := m, out := s.out, diag := s.diag, backing := s.backing, pending := s.pending } := by
  rw [hostReset, hbacking, restoreImage_toBytes h]
  simp [State.reset, hbacking]

/-- Settles O52: the persist step, then the reset step from the file it wrote. -/
theorem persistThenResetKeepsMemory : Obligations.PersistThenResetKeepsMemory := by
  intro s rest hstopped hmem hpending
  have hpersist := step_persistState hstopped hpending
  have hreset := step_of_pending (s := { s with backing := some s.mem.toBytes, pending := .reset :: rest }) hstopped rfl
  rw [hostTransact, hostReset_of_backing_toBytes hmem rfl] at hreset
  exact ⟨_, (core_run_succ hpersist 1).trans (core_run_succ hreset 0), rfl, rfl, rfl, rfl, rfl, rfl, rfl, rfl, rfl⟩

end Sys2Proof.Machine
end

section
/-! PROOFS. The power cycle (60_exceptions.md R215): `reset()` keeps the backing image and takes memory from it alone. -/

namespace Sys2Proof.Machine

/-- `restore()` from a file: its bytes when it has the right length, otherwise the open image. -/
theorem read_restoreImage_some (bs : List Byte) {a : Nat} (ha : a < Config.capacity) :
    (restoreImage (some bs)).1.read a =
      if bs.length = Config.capacity then bs.getD a 0#8 else Config.mismatchImage bs a := by
  by_cases hlength : bs.length = Config.capacity
  · rw [restoreImage, if_pos hlength, if_pos hlength, Memory.read_ofImage, if_pos ha]
  · rw [restoreImage, if_neg hlength, if_neg hlength, Memory.read_ofImage, if_pos ha]

@[simp] theorem hostReset_mem (s : State) : (hostReset s).mem = (restoreImage s.backing).1 := rfl

/-- `reset()` leaves the backing image, whether or not `restore()` warns. -/
@[simp] theorem hostReset_backing (s : State) : (hostReset s).backing = s.backing := by
  simp only [hostReset]
  split
  · rfl
  · rfl

/-- Settles O53: a power cycle is a reset, so memory is the image `restore()` makes of the backing file. -/
theorem powerCycleKeepsBackingOnly : Obligations.PowerCycleKeepsBackingOnly := by
  refine fun s => ⟨hostReset_backing s, rfl, rfl, rfl, rfl, rfl, fun a ha => ?_⟩
  rw [powerCycle, hostReset_mem]
  cases s.backing with
  | none => exact Memory.read_nil a
  | some bs => exact read_restoreImage_some bs ha

end Sys2Proof.Machine
end

section
/-! PROOFS. Reset and hazards (70_reset_and_hazards.md): a run that goes on stays at even addresses (R246), and what the
host's `reset()` sets and leaves (R230). -/

namespace Sys2Proof.Machine

/-! ### Even addresses (R246) -/

/-- HALT is the only instruction of R82's table with an odd length; the other odd ones are the unknown opcodes. -/
theorem specLength_even {op : Byte} (hdefined : op ∈ definedOpcodes) (hne : op ≠ 0x01#8) : specLength op % 2 = 0 := by
  simp only [definedOpcodes, List.mem_cons, List.not_mem_nil, or_false, hne, false_or] at hdefined
  rcases hdefined with rfl | rfl | rfl | rfl | rfl | rfl | rfl | rfl | rfl <;> rfl

/-- A step after which the run goes on performed neither HALT nor an unknown opcode. -/
theorem opcode_of_engineNext_running {s : State} (h : s.active = true) (hrunning : (engineNext s).running = true) :
    s.mem.read s.pc.toNat ∈ definedOpcodes ∧ s.mem.read s.pc.toNat ≠ 0x01#8 := by
  refine ⟨of_not_not fun hundefined => ?_, fun hhalt => ?_⟩
  · exact Bool.false_ne_true ((lastStep_unknownOpcode h hundefined).stopped.symm.trans hrunning)
  · exact Bool.false_ne_true ((lastStep_halt h hhalt).stopped.symm.trans hrunning)

/-- Settles O13: a step moves `pc` by the instruction's length, and the instructions of odd length end the run. -/
theorem runStaysEven : Obligations.RunStaysEven := by
  intro s t hactive heven hstep hrunning
  rw [step_engineNext hactive] at hstep
  cases hstep
  obtain ⟨hdefined, hne⟩ := opcode_of_engineNext_running hactive hrunning
  rw [engineNext_pc hactive, Nat.add_mod, heven, specLength_even hdefined hne]

/-! ### `reset()` (R230, R232, R234) -/

/-- `restore()` warns unless a backing file of the right length exists (R186). -/
theorem restoreImage_snd (b : Option (List Byte)) :
    (restoreImage b).2 = !decide (b.map List.length = some Config.capacity) := by
  cases b with
  | none => rfl
  | some bs => by_cases hlength : bs.length = Config.capacity <;> simp [restoreImage, hlength]

/-- `reset()` in one equation: the reset state with the restored memory, `OUT`, the backing image and the later
transactions as they were, and the warning of `restore()` after the earlier diagnostics. -/
theorem hostReset_eq (s : State) :
    hostReset s = { State.reset with
      mem := (restoreImage s.backing).1
      out := s.out
      diag := s.diag ++ if s.backing.map List.length = some Config.capacity then [] else [.restoreWarn]
      backing := s.backing
      pending := s.pending } := by
  simp only [hostReset, restoreImage_snd]
  by_cases hlength : s.backing.map List.length = some Config.capacity
  · simp [State.reset, hlength]
  · simp [State.reset, State.logDiag, hlength]

/-- Settles O45: the step is the host's `reset()`, whose memory is the one a power cycle leaves. -/
theorem resetTransaction : Obligations.ResetTransaction := by
  intro s rest hstopped hpending
  have hstep := step_of_pending hstopped hpending
  rw [hostTransact] at hstep
  obtain ⟨-, -, -, -, -, -, hmem⟩ := powerCycleKeepsBackingOnly { s with pending := rest }
  rw [powerCycle] at hmem
  rw [hostReset_eq] at hstep hmem
  obtain ⟨hregs, -, -, -, hstack, -⟩ := resetValues
  exact ⟨_, hstep, rfl, rfl, rfl, hregs, fun j _ => hstack j, hmem, rfl, rfl, rfl, rfl⟩

end Sys2Proof.Machine
end

section
/-! PROOFS. The policies of 92_eei_decisions.md D4 and D5: with valid register indices and all bytes in memory neither
matters to a step. -/

namespace Sys2Proof.Machine

/-- `IMM_FETCH` does not matter to the fetch of an instruction that lies whole in memory: only a 4-byte operand depends on
it, and this one is in range (D5). -/
theorem fetchInstr_in_range (f : ImmFetch) {s : State} (hpc : s.pc.toNat < Config.capacity)
    (hfits : s.pc.toNat + specLength (s.mem.read s.pc.toNat) ≤ Config.capacity) :
    fetchInstr f s = fetchInstr Config.immFetch s := by
  rw [← formatLength_formatOf] at hfits
  simp only [fetchInstr, fetch8_eq s, if_pos hpc]
  cases hformat : formatOf (s.mem.read s.pc.toNat) with
  | op | opR | opC | opRRR => rfl
  | opRI =>
    rw [hformat] at hfits
    have htwo : s.pc.toNat + 2 ≤ Config.capacity := Nat.le_trans (Nat.add_le_add_left (by decide) _) hfits
    have hoperand : ∀ t : State, t.pc = s.pc + 2#32 → fetch32 f t = fetch32 Config.immFetch t := fun t ht =>
      fetch32_in_range f (by rw [ht, toNat_add_of_le_capacity (n := 2) htwo]; exact hfits)
    simp only [fetch8_eq, BitVec.add_assoc, BitVec.reduceAdd]
    rw [hoperand _ rfl]

/-- Under every policy an effect is the default's, behind the policy's check of the instruction's register operands
(D4). -/
theorem effectUnder_eq_withRegs (p : BadRegPolicy) (i : Instr) (s : State) :
    effectUnder p i s = withRegs p i.regOperands (effectUnder .portDefault i) s := by
  cases p with
  | portDefault => rfl
  | squashInstruction => cases i <;> rfl

/-- With valid register indices and all bytes in memory the engine's step under any policies is the machine's own. -/
theorem engineStepUnder_eq_engineNext (p : BadRegPolicy) (f : ImmFetch) {s : State} (hactive : s.active = true)
    (hfits : s.pc.toNat + (fetchInstr Config.immFetch s).1.length ≤ Config.capacity)
    (hregs : ∀ r ∈ (fetchInstr Config.immFetch s).1.regOperands, r.toNat < 8) :
    engineStepUnder p f s = engineNext s := by
  have hpc := ((active_iff s).mp hactive).2
  obtain ⟨b1, b2, b3, imm, new, hfetch⟩ := fetchInstr_spec hpc
  have hlength : (fetchInstr Config.immFetch s).1.length = specLength (s.mem.read s.pc.toNat) := by
    rw [hfetch, decodeFields_length]
  rw [engineNext, engineStepUnder, engineStepUnder, fetchInstr_in_range f hpc (hlength ▸ hfits), badRegPolicy_eq,
    effectUnder_eq_withRegs, withRegs_valid p hregs]

/-- Settles O44: under any policies the step is the machine's own, so it is the same under all of them. -/
theorem policiesAgreeInRange : Obligations.PoliciesAgreeInRange := by
  intro s p q f g hactive hfits hregs
  have hown := fun p f => engineStepUnder_eq_engineNext p f hactive hfits hregs
  exact ⟨(hown p f).trans (hown q g).symm, (step_engineNext hactive).trans (congrArg _ (hown p f).symm)⟩

end Sys2Proof.Machine
end
